-- ==== Sys2Proof/Word.lean ====
section
/-!
DEFINITION. The word types of the KC8 core and their plainest arithmetic (00_scope R5, R7).
Every value is unsigned; CHIP-8 has no signed operation (R7).
-/

namespace Sys2Proof

/-- An 8-bit memory byte, general register or timer (R5 `V_BITS`, `TIMER_BITS`). -/
abbrev Byte := BitVec 8

/-- A 16-bit instruction word, address register, program counter or stack entry (R5). -/
abbrev Word := BitVec 16

/-- A general register's index 0-15, the fields `x` and `y` (R8, R49). -/
abbrev Reg := Fin 16

/-- `VF`, which is `V[15]` (R8). -/
abbrev VF : Reg := 15

/-- The 16 key bits, bit `k` being key `k` (10_state R26, 60_exceptions R119 `SetKeys`). -/
abbrev KeySet := BitVec 16

/-- `MEM_SIZE` (R5). -/
abbrev memSize : Nat := 4096

end Sys2Proof
end

