-- ==== Sys2Proof/Syntax.lean ====
section
/-!
DEFINITION. The 35 instruction kinds of 30_encoding R57, each with its decoded operands, and the
result of decoding a word.
-/

namespace Sys2Proof

/-- One constructor per row of spec/opcode_table.json (30_encoding R57). `x` and `y` are register
indices, `kk` a byte, `nnn` a 12-bit address, `n` a row count 0-15 (R49, R50). -/
inductive Instr where
  | sys (nnn : BitVec 12)
  | cls
  | ret
  | jp (nnn : BitVec 12)
  | call (nnn : BitVec 12)
  | seImm (x : Reg) (kk : Byte)
  | sneImm (x : Reg) (kk : Byte)
  | seReg (x y : Reg)
  | ldImm (x : Reg) (kk : Byte)
  | addImm (x : Reg) (kk : Byte)
  | ldReg (x y : Reg)
  | orReg (x y : Reg)
  | andReg (x y : Reg)
  | xorReg (x y : Reg)
  | addReg (x y : Reg)
  | sub (x y : Reg)
  | shr (x y : Reg)
  | subn (x y : Reg)
  | shl (x y : Reg)
  | sneReg (x y : Reg)
  | ldI (nnn : BitVec 12)
  | jpV0 (nnn : BitVec 12)
  | rnd (x : Reg) (kk : Byte)
  | drw (x y : Reg) (n : Fin 16)
  | skp (x : Reg)
  | sknp (x : Reg)
  | ldVxDt (x : Reg)
  | ldVxK (x : Reg)
  | ldDtVx (x : Reg)
  | ldStVx (x : Reg)
  | addIVx (x : Reg)
  | ldFVx (x : Reg)
  | ldBVx (x : Reg)
  | ldMemVx (x : Reg)
  | ldVxMem (x : Reg)
deriving DecidableEq, Repr

/-- What a word decodes to: an instruction, or the 36th variant `Unknown(w)`, which is not an
instruction (R57). -/
inductive Decoded where
  | instr (i : Instr)
  | unknown (w : Word)
deriving DecidableEq, Repr

end Sys2Proof
end

