-- ==== Sys2Proof/WellFormed.lean ====
section
/-!
DEFINITION. The check an instruction must pass to have an encoding of its own.
Operand ranges are in the types (R49, R50); what is left is that the words 0x00E0 and 0x00EE of
class 0 are CLS and RET, never SYS (30_encoding R52, R55; log 15).
-/

namespace Sys2Proof

/-- `SYS` takes every class-0 word other than 0x00E0 and 0x00EE (R55). -/
def Instr.wf : Instr → Bool
  | .sys nnn => nnn != 0x0E0#12 && nnn != 0x0EE#12
  | _ => true

end Sys2Proof
end

