-- ==== Sys2Proof/Decode.lean ====
section
/-!
DEFINITION. Decoding of a 16-bit word (30_encoding R49, R52) and, after it, the encoder written
from the same encodings (R51, R61). Decoding reads only the word (R56) and is total (R52).
-/

namespace Sys2Proof

/-- `o = w[15:12]`, the leading nibble (R49). -/
def fieldO (w : Word) : BitVec 4 := w.extractLsb' 12 4

/-- `x = w[11:8]` (R49). -/
def fieldX (w : Word) : Reg := (w.extractLsb' 8 4).toFin

/-- `y = w[7:4]` (R49). -/
def fieldY (w : Word) : Reg := (w.extractLsb' 4 4).toFin

/-- `n = w[3:0]` (R49). -/
def fieldN (w : Word) : Fin 16 := (w.extractLsb' 0 4).toFin

/-- `kk = w[7:0]` (R49). -/
def fieldKK (w : Word) : Byte := w.extractLsb' 0 8

/-- `nnn = w[11:0]` (R49). -/
def fieldNNN (w : Word) : BitVec 12 := w.extractLsb' 0 12

/-- Class 0: the exact words 0x00E0 and 0x00EE come before `SYS` (R52). -/
def decodeClass0 (w : Word) : Decoded :=
  if w = 0x00E0#16 then .instr .cls
  else if w = 0x00EE#16 then .instr .ret
  else .instr (.sys (fieldNNN w))

/-- Class 8: the nine register-register operations, chosen by the low nibble (R52, R53). -/
def decodeClass8 (w : Word) : Decoded :=
  let x := fieldX w
  let y := fieldY w
  if fieldN w = 0x0 then .instr (.ldReg x y)
  else if fieldN w = 0x1 then .instr (.orReg x y)
  else if fieldN w = 0x2 then .instr (.andReg x y)
  else if fieldN w = 0x3 then .instr (.xorReg x y)
  else if fieldN w = 0x4 then .instr (.addReg x y)
  else if fieldN w = 0x5 then .instr (.sub x y)
  else if fieldN w = 0x6 then .instr (.shr x y)
  else if fieldN w = 0x7 then .instr (.subn x y)
  else if fieldN w = 0xE then .instr (.shl x y)
  else .unknown w

/-- Class E: SKP and SKNP, chosen by the low byte (R52, R53). -/
def decodeClassE (w : Word) : Decoded :=
  if fieldKK w = 0x9E then .instr (.skp (fieldX w))
  else if fieldKK w = 0xA1 then .instr (.sknp (fieldX w))
  else .unknown w

/-- Class F: nine operations, chosen by the low byte (R52, R53). -/
def decodeClassF (w : Word) : Decoded :=
  let x := fieldX w
  if fieldKK w = 0x07 then .instr (.ldVxDt x)
  else if fieldKK w = 0x0A then .instr (.ldVxK x)
  else if fieldKK w = 0x15 then .instr (.ldDtVx x)
  else if fieldKK w = 0x18 then .instr (.ldStVx x)
  else if fieldKK w = 0x1E then .instr (.addIVx x)
  else if fieldKK w = 0x29 then .instr (.ldFVx x)
  else if fieldKK w = 0x33 then .instr (.ldBVx x)
  else if fieldKK w = 0x55 then .instr (.ldMemVx x)
  else if fieldKK w = 0x65 then .instr (.ldVxMem x)
  else .unknown w

/-- `Decode(w)` (R52): every word is exactly one of the 35 kinds or `Unknown`. The leading nibble
is below 16, so no word reaches the last arm. -/
def decode (w : Word) : Decoded :=
  let x := fieldX w
  let y := fieldY w
  match (fieldO w).toNat with
  | 0x0 => decodeClass0 w
  | 0x1 => .instr (.jp (fieldNNN w))
  | 0x2 => .instr (.call (fieldNNN w))
  | 0x3 => .instr (.seImm x (fieldKK w))
  | 0x4 => .instr (.sneImm x (fieldKK w))
  | 0x5 => if fieldN w = 0 then .instr (.seReg x y) else .unknown w
  | 0x6 => .instr (.ldImm x (fieldKK w))
  | 0x7 => .instr (.addImm x (fieldKK w))
  | 0x8 => decodeClass8 w
  | 0x9 => if fieldN w = 0 then .instr (.sneReg x y) else .unknown w
  | 0xA => .instr (.ldI (fieldNNN w))
  | 0xB => .instr (.jpV0 (fieldNNN w))
  | 0xC => .instr (.rnd x (fieldKK w))
  | 0xD => .instr (.drw x y (fieldN w))
  | 0xE => decodeClassE w
  | 0xF => decodeClassF w
  | _ => .unknown w

/-- The word of two consecutive bytes, the first the high byte: `hi ++ lo` (20_memory R37, R38). -/
def wordOfBytes (hi lo : Byte) : Word := hi ++ lo

/-- The word's bytes in memory order, high byte first (R38). -/
def highByte (w : Word) : Byte := w.extractLsb' 8 8

/-- The second byte in memory (R38). -/
def lowByte (w : Word) : Byte := w.extractLsb' 0 8

/-- Decoding of the two bytes at consecutive addresses, as the fetch reads them (R37, R52). -/
def decodeBytes (hi lo : Byte) : Decoded := decode (wordOfBytes hi lo)

/-- The host's question about one opcode-table row: what the decoder reads from the word whose bits
are `w`. Every instruction is one 16-bit word (R48), so bit 0 of `w` is bit 0 of the word; bits at
and above `nbits` are 0 (log 10). The word is laid out as the hardware stores it (high byte first) and given to the
decoder. -/
def decodeTableWord (nbits w : Nat) : Option Instr :=
  let word : Word := BitVec.ofNat 16 (w % 2 ^ nbits)
  match decodeBytes (highByte word) (lowByte word) with
  | .instr i => some i
  | .unknown _ => none

/-- Format `NNN` (R51). -/
def wordNNN (o : BitVec 4) (nnn : BitVec 12) : Word := o ++ nnn

/-- Formats `XKK` and `X` (R51); in format `X` the low byte is a sub-opcode. -/
def wordXKK (o : BitVec 4) (x : Reg) (kk : Byte) : Word := o ++ ((BitVec.ofFin x : BitVec 4) ++ kk)

/-- Formats `XY` and `XYN` (R51); in format `XY` the low nibble is a sub-opcode. -/
def wordXYN (o : BitVec 4) (x y n : Fin 16) : Word :=
  o ++ ((BitVec.ofFin x : BitVec 4) ++ ((BitVec.ofFin y : BitVec 4) ++ (BitVec.ofFin n : BitVec 4)))

/-- The word of an instruction (R51, R61; spec/opcode_table.json). -/
def encode : Instr → Word
  | .sys nnn => wordNNN 0x0 nnn
  | .cls => 0x00E0
  | .ret => 0x00EE
  | .jp nnn => wordNNN 0x1 nnn
  | .call nnn => wordNNN 0x2 nnn
  | .seImm x kk => wordXKK 0x3 x kk
  | .sneImm x kk => wordXKK 0x4 x kk
  | .seReg x y => wordXYN 0x5 x y 0x0
  | .ldImm x kk => wordXKK 0x6 x kk
  | .addImm x kk => wordXKK 0x7 x kk
  | .ldReg x y => wordXYN 0x8 x y 0x0
  | .orReg x y => wordXYN 0x8 x y 0x1
  | .andReg x y => wordXYN 0x8 x y 0x2
  | .xorReg x y => wordXYN 0x8 x y 0x3
  | .addReg x y => wordXYN 0x8 x y 0x4
  | .sub x y => wordXYN 0x8 x y 0x5
  | .shr x y => wordXYN 0x8 x y 0x6
  | .subn x y => wordXYN 0x8 x y 0x7
  | .shl x y => wordXYN 0x8 x y 0xE
  | .sneReg x y => wordXYN 0x9 x y 0x0
  | .ldI nnn => wordNNN 0xA nnn
  | .jpV0 nnn => wordNNN 0xB nnn
  | .rnd x kk => wordXKK 0xC x kk
  | .drw x y n => wordXYN 0xD x y n
  | .skp x => wordXKK 0xE x 0x9E
  | .sknp x => wordXKK 0xE x 0xA1
  | .ldVxDt x => wordXKK 0xF x 0x07
  | .ldVxK x => wordXKK 0xF x 0x0A
  | .ldDtVx x => wordXKK 0xF x 0x15
  | .ldStVx x => wordXKK 0xF x 0x18
  | .addIVx x => wordXKK 0xF x 0x1E
  | .ldFVx x => wordXKK 0xF x 0x29
  | .ldBVx x => wordXKK 0xF x 0x33
  | .ldMemVx x => wordXKK 0xF x 0x55
  | .ldVxMem x => wordXKK 0xF x 0x65

end Sys2Proof
end

