-- ==== Sys2Proof/Machine/Font.lean ====
section
/-!
DEFINITION. The font bytes of 44_display R95 and what memory holds after the zero fill and the font
of a load (70_reset R125, R127).
-/

namespace Sys2Proof.Machine

open Sys2Proof

/-- Glyphs 0-7, five bytes each (R95). -/
def fontLow : List Byte :=
  [0xF0, 0x90, 0x90, 0x90, 0xF0] ++ [0x20, 0x60, 0x20, 0x20, 0x70] ++
  [0xF0, 0x10, 0xF0, 0x80, 0xF0] ++ [0xF0, 0x10, 0xF0, 0x10, 0xF0] ++
  [0x90, 0x90, 0xF0, 0x10, 0x10] ++ [0xF0, 0x80, 0xF0, 0x10, 0xF0] ++
  [0xF0, 0x80, 0xF0, 0x90, 0xF0] ++ [0xF0, 0x10, 0x20, 0x40, 0x40]

/-- Glyphs 8-F, five bytes each (R95). -/
def fontHigh : List Byte :=
  [0xF0, 0x90, 0xF0, 0x90, 0xF0] ++ [0xF0, 0x90, 0xF0, 0x10, 0xF0] ++
  [0xF0, 0x90, 0xF0, 0x90, 0x90] ++ [0xE0, 0x90, 0xE0, 0x90, 0xE0] ++
  [0xF0, 0x80, 0x80, 0x80, 0xF0] ++ [0xE0, 0x90, 0x90, 0x90, 0xE0] ++
  [0xF0, 0x80, 0xF0, 0x80, 0xF0] ++ [0xF0, 0x80, 0xF0, 0x80, 0x80]

/-- The 80 font bytes; glyph `d` is bytes `5*d` to `5*d + 4` (R95). -/
def fontBytes : List Byte := fontLow ++ fontHigh

/-- What an address not listed in `State.mem` reads as: the font byte inside
`fontBase .. fontBase + 79`, 0 everywhere else (70_reset R125-R127). -/
def unlistedByte (fontBase a : Nat) : Byte :=
  if fontBase ≤ a then fontBytes.getD (a - fontBase) 0 else 0

end Sys2Proof.Machine
end

