-- ==== Sys2Proof/Config.lean ====
section
/-!
DEFINITION. The named parameters of 00_scope R6 as types, and the free value `RAND`.
The values the spec takes stand in Machine/Params.lean. `CYCLES_PER_FRAME` is an argument of the
frame operation (Machine/HostOps.lean), since the spec leaves it open (D27; log 13).
-/

namespace Sys2Proof

/-- `UNKNOWN_OPCODE_POLICY` (R6, D5). -/
inductive UnknownPolicy where
  | nopDiagnostic
  | halt
deriving DecidableEq, Repr

/-- `SHIFT_SOURCE`: the register that SHR and SHL shift (R6, D7). -/
inductive ShiftSource where
  | vx
  | vy
deriving DecidableEq, Repr

/-- `JUMP_OFFSET_REG`: the register that JP V0 adds (R6, D10). -/
inductive JumpOffsetReg where
  | v0
  | vx
deriving DecidableEq, Repr

/-- The parameters of R6 that a cycle depends on. `fontBase` has the range 0x000-0x1B0 of R6. -/
structure Params where
  unknownPolicy      : UnknownPolicy
  shiftSource        : ShiftSource
  logicVfReset       : Bool
  loadStoreIncrement : Bool
  jumpOffsetReg      : JumpOffsetReg
  fontBase           : Fin 0x1B1
deriving DecidableEq, Repr

/-- `RAND` (R6, D15): draw number `n` of the random source. It has no body: every byte is possible
and nothing can be proved of its value (free value, log 2). -/
opaque Config.rand : Nat → Byte

end Sys2Proof
end

