-- ==== Sys2Proof/Machine/Params.lean ====
section
/-!
DEFINITION. The values the spec takes for the parameters of 00_scope R6 (its third column).
-/

namespace Sys2Proof.Machine

/-- `NopDiagnostic`, `Vx`, false, false, `V0`, 0x000 (R6; decisions D5, D7, D8, D9, D10, D12). -/
def specParams : Params where
  unknownPolicy := .nopDiagnostic
  shiftSource := .vx
  logicVfReset := false
  loadStoreIncrement := false
  jumpOffsetReg := .v0
  fontBase := 0x000

end Sys2Proof.Machine
end

