-- ==== Sys2Proof/Machine/State.lean ====
section
/-!
DEFINITION. The Machine State of 10_state R13, its reset, and the reasons a step can stop.
Plain data throughout: two states can be compared and written out.
-/

namespace Sys2Proof.Machine

open Sys2Proof

/-- The fatal fault that `Halted(f)` keeps (10_state R24, R28). A cycle's own result, with the word
and address of an unknown opcode, is an output (R31): `CycleResult` in Machine/HostOps.lean. -/
inductive FatalFault where
  | stackOverflow
  | stackUnderflow
  | unknownOpcode
deriving DecidableEq, Repr

/-- The engine mode (R24): `last` is the 16-bit key snapshot of the key wait (R27). -/
inductive Mode where
  | running
  | awaitingKey (x : Reg) (last : KeySet)
  | halted (f : FatalFault)
deriving DecidableEq, Repr

/-- The 64x32 one-bit pixels (R25), held as 32 rows of 64 columns. -/
abbrev Display := Vector (Vector Bool 64) 32

/-- The bytes that differ from the reset contents, by rising address (20_memory R34; log 4).
Machine/Ops.lean gives the one canonical form (`Memory.wf`), the read and the write. -/
abbrev Memory := List Host.Cell

/-- The Machine State (R13). `params` and `draws` are the model's own (log 1 and log 2): the
parameters of the step, which nothing writes, and the count of RAND bytes drawn so far. -/
structure State where
  v      : Vector Byte 16
  i      : Word
  pc     : Word
  stack  : Vector Word 16
  sp     : Fin 17
  dt     : Byte
  st     : Byte
  mode   : Mode
  disp   : Display
  keys   : KeySet
  mem    : Memory
  params : Params
  draws  : Nat
deriving DecidableEq, Repr

/-- Why a step stops with a fault. No step of this machine does: every fault of the spec either is
passed over or moves `Mode` to `Halted`, both next states (60_exceptions, opening; R106, R111). -/
inductive Fault where
  /-- `AddressOutOfRange`. Raised by nothing: the spec says it is never raised, because every
  address is masked (R44, R109). Safe. -/
  | addressOutOfRange
deriving DecidableEq, Repr

/-- Why a step refuses. -/
inductive Refusal where
  /-- An instruction that has no meaning yet. Raised by nothing: all 35 have theirs. Safe. -/
  | notModelled (mnemonic : String)
deriving DecidableEq, Repr

/-- What an instruction's meaning answers. -/
abbrev Result := Host.Outcome State Fault Refusal

/-- Every pixel unset (70_reset R125). -/
def clearedDisplay : Display := Vector.replicate 32 (Vector.replicate 64 false)

/-- The state after `Load` of an empty image (70_reset R125, R126): memory holds the font and zeros,
which is what unlisted addresses read as. `keys` is not set by the load (R126, D28); 0 is the
model's choice (log 3). -/
def State.reset : State where
  v := Vector.replicate 16 0
  i := 0
  pc := 0x200
  stack := Vector.replicate 16 0
  sp := 0
  dt := 0
  st := 0
  mode := .running
  disp := clearedDisplay
  keys := 0
  mem := []
  params := specParams
  draws := 0

end Sys2Proof.Machine
end

