-- ==== Sys2Proof/Machine/Ops.lean ====
section
/-!
DEFINITION. The named operations over memory, registers, stack and display, and the taking of a
fatal fault. All reads and writes of State go through these.
-/

namespace Sys2Proof.Machine

open Sys2Proof

/-! ### Memory -/

/-- The byte at address `a`: the listed one, else the reset contents. -/
def Memory.read (fontBase : Nat) : Memory → Nat → Byte
  | [], a => unlistedByte fontBase a
  | (b, w) :: m, a => if a = b then w else Memory.read fontBase m a

/-- Writing keeps the list in canonical form: writing the reset contents removes the entry. -/
def Memory.write (fontBase : Nat) : Memory → Nat → Byte → Memory
  | [], a, v => if v = unlistedByte fontBase a then [] else [(a, v)]
  | (b, w) :: m, a, v =>
    if a < b then
      if v = unlistedByte fontBase a then (b, w) :: m else (a, v) :: (b, w) :: m
    else if a = b then
      if v = unlistedByte fontBase a then m else (a, v) :: m
    else (b, w) :: Memory.write fontBase m a v

/-- Addresses rise strictly from `lo`, lie in memory, and no entry repeats the reset contents. -/
def Memory.wfFrom (fontBase : Nat) : Nat → Memory → Bool
  | _, [] => true
  | lo, (a, v) :: m =>
    decide (lo ≤ a) && decide (a < memSize) && (v != unlistedByte fontBase a) &&
      Memory.wfFrom fontBase (a + 1) m

/-- The canonical form of memory: equal memories are equal lists (log 4). -/
def Memory.wf (fontBase : Nat) (m : Memory) : Bool := Memory.wfFrom fontBase 0 m

/-- `addr & 0xFFF`, which is `addr mod 2^12`: every access is confined to memory (20_memory R35,
R36, R44). The address is formed at full width before it is masked (R35, D2). -/
def maskAddr (a : Nat) : Nat := a % memSize

/-- `MemRead(addr, 1)` (20_memory R35). -/
def State.readByte (s : State) (a : Nat) : Byte :=
  Memory.read s.params.fontBase.val s.mem (maskAddr a)

/-- `MemWrite(addr, 1, v)` (20_memory R36). -/
def State.writeByte (s : State) (a : Nat) (b : Byte) : State :=
  { s with mem := Memory.write s.params.fontBase.val s.mem (maskAddr a) b }

/-- `Fetch(PC)` (20_memory R37): big-endian, each byte address masked. -/
def State.fetch (s : State) : Word :=
  wordOfBytes (s.readByte s.pc.toNat) (s.readByte (s.pc.toNat + 1))

/-! ### Registers -/

/-- `V[r]` (10_state R14). -/
def State.getV (s : State) (r : Reg) : Byte := s.v[r]

/-- `V[r] <- b` (10_state R14). -/
def State.setV (s : State) (r : Reg) (b : Byte) : State := { s with v := s.v.set r.val b }

/-- `I <- w` (10_state R17). -/
def State.setI (s : State) (w : Word) : State := { s with i := w }

/-- `PC <- w` (10_state R18). -/
def State.setPc (s : State) (w : Word) : State := { s with pc := w }

/-- `PC <- trunc_16(PC + 2)`, the next PC of a normal instruction (10_state R18, R20). -/
def State.advance (s : State) : State := s.setPc (s.pc + 2)

/-- `Skip(cond)` (41_skips R68). -/
def State.skipIf (s : State) (cond : Bool) : State :=
  if cond then s.setPc (s.pc + 4) else s.setPc (s.pc + 2)

/-- `DT <- b` (10_state R23). -/
def State.setDt (s : State) (b : Byte) : State := { s with dt := b }

/-- `ST <- b` (10_state R23). -/
def State.setSt (s : State) (b : Byte) : State := { s with st := b }

/-- `Mode <- m` (10_state R24). -/
def State.setMode (s : State) (m : Mode) : State := { s with mode := m }

/-- The display after a draw or a clear (10_state R25). -/
def State.setDisp (s : State) (d : Display) : State := { s with disp := d }

/-- One byte of RAND has been drawn (log 2). -/
def State.countDraw (s : State) : State := { s with draws := s.draws + 1 }

/-- `Keys[k] == 1` (10_state R26). -/
def State.keyDown (s : State) (k : Fin 16) : Bool := s.keys.getLsbD k.val

/-! ### Stack -/

/-- `Stack[j]` (10_state R21). -/
def State.stackAt (s : State) (j : Nat) : Word := s.stack[j]?.getD 0

/-- Push: `Stack[SP] <- w`, then `SP <- SP + 1` (10_state R22). -/
def State.push (s : State) (w : Word) : State :=
  { s with stack := s.stack.setIfInBounds s.sp.val w, sp := Fin.ofNat 17 (s.sp.val + 1) }

/-- Pop's first half: `SP <- SP - 1`. The entry is not cleared (10_state R22). -/
def State.dropTop (s : State) : State := { s with sp := Fin.ofNat 17 (s.sp.val - 1) }

/-! ### Display -/

/-- `Disp[c][r]` (10_state R25). -/
def Display.pixel (d : Display) (c : Fin 64) (r : Fin 32) : Bool := d[r][c]

/-- `Disp[c][r] <- Disp[c][r] ^ 1` (44_display R93). -/
def Display.toggle (d : Display) (c : Fin 64) (r : Fin 32) : Display :=
  d.set r.val (d[r].set c.val (!d[r][c]))

/-! ### Faults -/

/-- Taking a fatal fault changes exactly one thing, `Mode <- Halted(f)`: nothing is pushed, no
register is saved, no vector is taken (60_exceptions R111). There is no return from a fault (R112);
only a new load leaves `Halted` (`load` in Machine/Load.lean). -/
def haltWith (f : FatalFault) (s : State) : Result := .next (s.setMode (.halted f))

end Sys2Proof.Machine
end

