-- ==== Sys2Proof/Machine/Operands.lean ====
section
/-!
DEFINITION. The operand forms (30_encoding R50 and the instruction rules): immediates widened with
zero bits, the register a shift or a jump offset comes from, addresses formed from I, and the low
nibble that selects a key or a glyph.
-/

namespace Sys2Proof.Machine

open Sys2Proof

/-- `zext_16(nnn)`: an address immediate is zero-extended when it is written to PC or I (R50). -/
def zextAddr (nnn : BitVec 12) : Word := nnn.setWidth 16

/-- `zext_16(b)`: a byte added to I or to a jump target (40_control_flow R67, 43_index_memory R86). -/
def zextByte (b : Byte) : Word := b.setWidth 16

/-- The register SHR and SHL shift: `V[y]` with `SHIFT_SOURCE = Vy`, else `V[x]` (42_alu R82, R84). -/
def State.shiftOperand (s : State) (x y : Reg) : Byte :=
  match s.params.shiftSource with
  | .vx => s.getV x
  | .vy => s.getV y

/-- The register JP V0 adds: `V[nnn[11:8]]` with `JUMP_OFFSET_REG = Vx`, else `V[0]`
(40_control_flow R67). -/
def State.jumpOffset (s : State) (nnn : BitVec 12) : Byte :=
  match s.params.jumpOffsetReg with
  | .v0 => s.getV 0
  | .vx => s.getV (nnn.extractLsb' 8 4).toFin

/-- `I + k` at full width, before it is masked (20_memory R35). -/
def State.indexAddr (s : State) (k : Nat) : Nat := s.i.toNat + k

/-- `b & 0xF`: the key SKP and SKNP test, the glyph LD F selects (45_timers_input_random R100,
43_index_memory R87). -/
def lowNibble (b : Byte) : Fin 16 := (b.extractLsb' 0 4).toFin

/-- The decimal digits LD B stores: hundreds, tens, ones (43_index_memory R88). -/
def hundreds (b : Byte) : Byte := BitVec.ofNat 8 (b.toNat / 100)

/-- See `hundreds`. -/
def tens (b : Byte) : Byte := BitVec.ofNat 8 (b.toNat / 10 % 10)

/-- See `hundreds`. -/
def ones (b : Byte) : Byte := BitVec.ofNat 8 (b.toNat % 10)

end Sys2Proof.Machine
end

