-- ==== Sys2Proof/Machine/Flags.lean ====
section
/-!
DEFINITION. The flag outcomes of VF (10_state R16) and the order in which a result and its flag are
written (42_alu R73). Sums are compared exactly, at a width wider than 8 bits.
-/

namespace Sys2Proof.Machine

open Sys2Proof

/-- A truth value as the flag byte 1 or 0 (10_state R16). -/
def flagByte (b : Bool) : Byte := if b then 1 else 0

/-- 1 if `a + b > 255`, else 0 (42_alu R75, R80). -/
def carryFlag (a b : Byte) : Byte := flagByte (decide (255 < a.toNat + b.toNat))

/-- Not-borrow of `a - b`: 1 if `a >= b`, else 0 (42_alu R81, R83). -/
def notBorrowFlag (a b : Byte) : Byte := flagByte (decide (b.toNat ≤ a.toNat))

/-- The bit SHR shifts out, the old bit 0 (42_alu R82). -/
def shiftedOutRight (a : Byte) : Byte := flagByte (a.getLsbD 0)

/-- The bit SHL shifts out, the old bit 7 (42_alu R84). -/
def shiftedOutLeft (a : Byte) : Byte := flagByte (a.getLsbD 7)

/-- Result to `V[x]` first, flag to VF second: with `x = F` the flag remains (42_alu R73, D6). -/
def State.setResultFlag (s : State) (x : Reg) (result flag : Byte) : State :=
  (s.setV x result).setV VF flag

/-- `if LOGIC_VF_RESET then VF <- 0` after OR, AND, XOR (42_alu R77-R79). -/
def State.logicVf (s : State) : State := if s.params.logicVfReset then s.setV VF 0 else s

/-- `if LOADSTORE_I_INCREMENT then I <- trunc_16(I + x + 1)` after a register transfer
(43_index_memory R89, R90). -/
def State.transferI (s : State) (x : Reg) : State :=
  if s.params.loadStoreIncrement then s.setI (s.i + BitVec.ofNat 16 (x.val + 1)) else s

end Sys2Proof.Machine
end

