-- ==== Sys2Proof/Machine/Cycle.lean ====
section
/-!
DEFINITION. What a cycle does when it runs no instruction: the key-wait step (R103), an unknown
opcode (60_exceptions R106), and `Halted` (R112).
-/

namespace Sys2Proof.Machine

open Sys2Proof

/-- The 16 keys in rising order. -/
def allKeys : List (Fin 16) := [0, 1, 2, 3, 4, 5, 6, 7, 8, 9, 10, 11, 12, 13, 14, 15]

/-- The lowest index with `new[k] == 1` (R103). -/
def lowestKey (new : KeySet) : Option (Fin 16) := allKeys.find? (fun k => new.getLsbD k.val)

/-- The keys that are down now and were up in the snapshot: `Keys & ~last` (R103, 10_state R27). -/
def State.newKeys (s : State) (last : KeySet) : KeySet := s.keys &&& ~~~last

/-- A key's index as a register value (R103). -/
def keyByte (k : Fin 16) : Byte := BitVec.ofNat 8 k.val

/-- `KeyWaitStep(x, last)` (R103): nothing is fetched. -/
def keyWaitStep (x : Reg) (last : KeySet) (s : State) : Result :=
  match lowestKey (s.newKeys last) with
  | none => .next (s.setMode (.awaitingKey x s.keys))
  | some k => .next ((s.setV x (keyByte k)).advance.setMode .running)

/-- `UnknownOpcodeStep` (60_exceptions R106). The word and its address go to the cycle's result and
diagnostic (`cycleResult` and `cycleDiagnostic` in Machine/HostOps.lean). -/
def unknownOpcodeStep (s : State) : Result :=
  match s.params.unknownPolicy with
  | .nopDiagnostic => .next s.advance
  | .halt => haltWith .unknownOpcode s

/-- A cycle in `Halted` changes nothing (60_exceptions R112). -/
def haltedStep (s : State) : Result := .next s

end Sys2Proof.Machine
end

