-- ==== Sys2Proof/Machine/Alu.lean ====
section
/-!
DEFINITION. Register loads and the arithmetic unit (42_alu R73-R84). Flags are computed from the
operands read when the instruction began; the result is written first, the flag second (R73).
-/

namespace Sys2Proof.Machine

open Sys2Proof

/-- LD Vx, byte (R74). -/
def execLdImm (x : Reg) (kk : Byte) (s : State) : Result := .next (s.setV x kk).advance

/-- ADD Vx, byte, with carry into VF (R75; conflict C1). -/
def execAddImm (x : Reg) (kk : Byte) (s : State) : Result :=
  .next (s.setResultFlag x (s.getV x + kk) (carryFlag (s.getV x) kk)).advance

/-- LD Vx, Vy (R76). -/
def execLdReg (x y : Reg) (s : State) : Result := .next (s.setV x (s.getV y)).advance

/-- OR Vx, Vy (R77). -/
def execOrReg (x y : Reg) (s : State) : Result :=
  .next (s.setV x (s.getV x ||| s.getV y)).logicVf.advance

/-- AND Vx, Vy (R78). -/
def execAndReg (x y : Reg) (s : State) : Result :=
  .next (s.setV x (s.getV x &&& s.getV y)).logicVf.advance

/-- XOR Vx, Vy (R79). -/
def execXorReg (x y : Reg) (s : State) : Result :=
  .next (s.setV x (s.getV x ^^^ s.getV y)).logicVf.advance

/-- ADD Vx, Vy, with carry into VF (R80). -/
def execAddReg (x y : Reg) (s : State) : Result :=
  .next (s.setResultFlag x (s.getV x + s.getV y) (carryFlag (s.getV x) (s.getV y))).advance

/-- SUB Vx, Vy, with not-borrow into VF (R81; conflict C4). -/
def execSub (x y : Reg) (s : State) : Result :=
  .next (s.setResultFlag x (s.getV x - s.getV y) (notBorrowFlag (s.getV x) (s.getV y))).advance

/-- SHR Vx: VF takes the bit shifted out (R82). -/
def execShr (x y : Reg) (s : State) : Result :=
  .next (s.setResultFlag x (s.shiftOperand x y >>> 1) (shiftedOutRight (s.shiftOperand x y))).advance

/-- SUBN Vx, Vy: `Vy - Vx`, with not-borrow into VF (R83). -/
def execSubn (x y : Reg) (s : State) : Result :=
  .next (s.setResultFlag x (s.getV y - s.getV x) (notBorrowFlag (s.getV y) (s.getV x))).advance

/-- SHL Vx: VF takes the bit shifted out (R84). -/
def execShl (x y : Reg) (s : State) : Result :=
  .next (s.setResultFlag x (s.shiftOperand x y <<< 1) (shiftedOutLeft (s.shiftOperand x y))).advance

end Sys2Proof.Machine
end

