-- ==== Sys2Proof/Machine/Control.lean ====
section
/-!
DEFINITION. Control transfer: SYS, RET, JP, CALL, JP V0 (40_control_flow R63-R67).
-/

namespace Sys2Proof.Machine

open Sys2Proof

/-- SYS: a no-op (R63). `nnn` is not used. -/
def execSys (_nnn : BitVec 12) (s : State) : Result := .next s.advance

/-- RET (R64): the underflow check comes before anything is written. -/
def execRet (s : State) : Result :=
  if s.sp = 0 then haltWith .stackUnderflow s
  else .next (s.dropTop.setPc (s.dropTop.stackAt s.dropTop.sp.val))

/-- JP (R65). -/
def execJp (nnn : BitVec 12) (s : State) : Result := .next (s.setPc (zextAddr nnn))

/-- CALL (R66): the overflow check comes before anything is written. -/
def execCall (nnn : BitVec 12) (s : State) : Result :=
  if s.sp = 16 then haltWith .stackOverflow s
  else .next ((s.push (s.pc + 2)).setPc (zextAddr nnn))

/-- JP V0 (R67). -/
def execJpV0 (nnn : BitVec 12) (s : State) : Result :=
  .next (s.setPc (zextAddr nnn + zextByte (s.jumpOffset nnn)))

end Sys2Proof.Machine
end

