-- ==== Sys2Proof/Machine/DisplayEngine.lean ====
section
/-!
DEFINITION. The display engine: CLS, DRW (44_display R91-R94).
-/

namespace Sys2Proof.Machine

open Sys2Proof

/-- A draw in progress: the display so far and whether a set pixel has been unset (R93 `hit`). -/
structure Blit where
  disp : Display
  hit  : Bool
deriving DecidableEq, Repr

/-- One set sprite bit lands on pixel (c, r) (R93, R94). -/
def plot (c : Fin 64) (r : Fin 32) (z : Blit) : Blit :=
  { disp := Display.toggle z.disp c r, hit := z.hit || Display.pixel z.disp c r }

/-- The first `n` pixels of one sprite row `b`, whose leftmost is bit 7; columns wrap modulo 64 and
rows modulo 32, independently (R91, R93). -/
def blitRow (b : Byte) (cx py : Nat) : Nat → Blit → Blit
  | 0, z => z
  | c + 1, z =>
    let z' := blitRow b cx py c z
    if b.getLsbD (7 - c) then plot (Fin.ofNat 64 (cx + c)) (Fin.ofNat 32 py) z' else z'

/-- The first `n` rows of the sprite at I (R93). -/
def blitRows (s : State) (cx cy : Nat) : Nat → Blit → Blit
  | 0, z => z
  | r + 1, z => blitRow (s.readByte (s.indexAddr r)) cx (cy + r) 8 (blitRows s cx cy r z)

/-- The sprite of `n` rows at origin `(Vx mod 64, Vy mod 32)`, drawn on the display (R93). -/
def blit (x y : Reg) (n : Nat) (s : State) : Blit :=
  blitRows s ((s.getV x).toNat % 64) ((s.getV y).toNat % 32) n { disp := s.disp, hit := false }

/-- CLS (R92). -/
def execCls (s : State) : Result := .next (s.setDisp clearedDisplay).advance

/-- DRW Vx, Vy, n: the coordinates are read before VF is written (R93). -/
def execDrw (x y : Reg) (n : Fin 16) (s : State) : Result :=
  let z := blit x y n.val s
  .next ((s.setDisp z.disp).setV VF (flagByte z.hit)).advance

end Sys2Proof.Machine
end

