-- ==== Sys2Proof/Machine/IndexMemory.lean ====
section
/-!
DEFINITION. The address register and memory transfers (43_index_memory R85-R90).
-/

namespace Sys2Proof.Machine

open Sys2Proof

/-- Store `V[0] .. V[n-1]` at `I .. I+n-1`, one byte at a time in increasing order (R89,
20_memory R39). -/
def storeRegs : Nat → State → State
  | 0, s => s
  | n + 1, s =>
    let t := storeRegs n s
    t.writeByte (t.indexAddr n) (t.getV (Fin.ofNat 16 n))

/-- Load `V[0] .. V[n-1]` from `I .. I+n-1`, in increasing order (R90, 20_memory R39). -/
def loadRegs : Nat → State → State
  | 0, s => s
  | n + 1, s =>
    let t := loadRegs n s
    t.setV (Fin.ofNat 16 n) (t.readByte (t.indexAddr n))

/-- LD I, addr (R85). -/
def execLdI (nnn : BitVec 12) (s : State) : Result := .next (s.setI (zextAddr nnn)).advance

/-- ADD I, Vx: modulo 2^16, VF unchanged (R86, D11). -/
def execAddIVx (x : Reg) (s : State) : Result :=
  .next (s.setI (s.i + zextByte (s.getV x))).advance

/-- LD F, Vx: the glyph of the low nibble (R87). -/
def execLdFVx (x : Reg) (s : State) : Result :=
  .next (s.setI (BitVec.ofNat 16 (s.params.fontBase.val + 5 * (lowNibble (s.getV x)).val))).advance

/-- LD B, Vx: the three decimal digits at I, I+1, I+2 (R88). -/
def execLdBVx (x : Reg) (s : State) : Result :=
  let b := s.getV x
  .next (((s.writeByte (s.indexAddr 0) (hundreds b)).writeByte (s.indexAddr 1) (tens b)).writeByte
    (s.indexAddr 2) (ones b)).advance

/-- LD [I], Vx (R89). -/
def execLdMemVx (x : Reg) (s : State) : Result :=
  .next ((storeRegs (x.val + 1) s).transferI x).advance

/-- LD Vx, [I] (R90). -/
def execLdVxMem (x : Reg) (s : State) : Result :=
  .next ((loadRegs (x.val + 1) s).transferI x).advance

end Sys2Proof.Machine
end

