-- ==== Sys2Proof/Machine/Skips.lean ====
section
/-!
DEFINITION. Conditional skips: SE, SNE on registers (41_skips R68-R72), SKP, SKNP on keys
(45_timers_input_random R100, R101).
-/

namespace Sys2Proof.Machine

open Sys2Proof

/-- SE Vx, byte (R69). -/
def execSeImm (x : Reg) (kk : Byte) (s : State) : Result := .next (s.skipIf (s.getV x == kk))

/-- SNE Vx, byte (R70). -/
def execSneImm (x : Reg) (kk : Byte) (s : State) : Result := .next (s.skipIf (s.getV x != kk))

/-- SE Vx, Vy (R71). -/
def execSeReg (x y : Reg) (s : State) : Result := .next (s.skipIf (s.getV x == s.getV y))

/-- SNE Vx, Vy (R72). -/
def execSneReg (x y : Reg) (s : State) : Result := .next (s.skipIf (s.getV x != s.getV y))

/-- SKP: skip if the key of `Vx`'s low nibble is down (R100). -/
def execSkp (x : Reg) (s : State) : Result :=
  .next (s.skipIf (s.keyDown (lowNibble (s.getV x))))

/-- SKNP: skip if that key is up (R101). -/
def execSknp (x : Reg) (s : State) : Result :=
  .next (s.skipIf (!s.keyDown (lowNibble (s.getV x))))

end Sys2Proof.Machine
end

