-- ==== Sys2Proof/Machine/TimersKeysRandom.lean ====
section
/-!
DEFINITION. Timers, the entry of the key wait, and random (45_timers_input_random R97-R99, R102,
R104), and the timer unit's tick (60_exceptions R116).
-/

namespace Sys2Proof.Machine

open Sys2Proof

/-- LD Vx, DT (R97). -/
def execLdVxDt (x : Reg) (s : State) : Result := .next (s.setV x s.dt).advance

/-- LD DT, Vx (R98). -/
def execLdDtVx (x : Reg) (s : State) : Result := .next (s.setDt (s.getV x)).advance

/-- LD ST, Vx (R99). -/
def execLdStVx (x : Reg) (s : State) : Result := .next (s.setSt (s.getV x)).advance

/-- LD Vx, K: enter the key wait with the key state now; PC still addresses this word (R102). -/
def execLdVxK (x : Reg) (s : State) : Result := .next (s.setMode (.awaitingKey x s.keys))

/-- `V[x] <- r & kk` for a drawn byte `r` (R104). -/
def rndWith (r : Byte) (x : Reg) (kk : Byte) (s : State) : State := (s.setV x (r &&& kk)).advance

/-- RND Vx, byte: the next byte of RAND under a mask (R104). The byte is a free value (log 2). -/
def execRnd (x : Reg) (kk : Byte) (s : State) : Result :=
  .next (rndWith (Config.rand s.draws) x kk s.countDraw)

/-- One timer, decremented and floored at 0 (R116). -/
def countDown (b : Byte) : Byte := if b = 0 then 0 else b - 1

/-- `Tick()` (R116): nothing happens in `Halted` (D20). -/
def tick (s : State) : State :=
  match s.mode with
  | .halted _ => s
  | .running => (s.setDt (countDown s.dt)).setSt (countDown s.st)
  | .awaitingKey _ _ => (s.setDt (countDown s.dt)).setSt (countDown s.st)

/-- The sound output `ST > 0` (60_exceptions R118). -/
def soundActive (s : State) : Bool := s.st != 0

end Sys2Proof.Machine
end

