-- ==== Sys2Proof/Machine/Step.lean ====
section
/-!
DEFINITION. One step is one `Cycle()` (30_encoding R59; log 5), and the host's way to place the next
instruction.
-/

namespace Sys2Proof.Machine

open Sys2Proof

/-- `execute_cycle` (R59): the mode decides whether a fetch happens; at most one word is fetched and
one instruction executed. -/
def step (s : State) : Host.Outcome State Fault Refusal :=
  match s.mode with
  | .halted _ => haltedStep s
  | .awaitingKey x last => keyWaitStep x last s
  | .running =>
    match decode s.fetch with
    | .unknown _ => unknownOpcodeStep s
    | .instr i => exec i s

/-- `s` with the word whose bits are `w` stored where the next step fetches (the two bytes at PC,
high byte first, 20_memory R37) and the mode that lets it fetch (log 9). -/
def State.withFetchWord (s : State) (nbits w : Nat) : State :=
  let word : Word := BitVec.ofNat 16 (w % 2 ^ nbits)
  ((s.writeByte s.pc.toNat (highByte word)).writeByte (s.pc.toNat + 1) (lowByte word)).setMode .running

end Sys2Proof.Machine
end

