-- ==== Sys2Proof/Machine/Load.lean ====
section
/-!
DEFINITION. The load operation, which is the block's reset (70_reset R125-R128, 60_exceptions R110).
-/

namespace Sys2Proof.Machine

open Sys2Proof

/-- `PROGRAM_BASE` (00_scope R5). -/
def programBase : Nat := 0x200

/-- `MAX_IMAGE` (00_scope R5). -/
def maxImage : Nat := 3584

/-- The bytes of a list written from address `a` on. -/
def placeBytes (fontBase : Nat) : Nat → List Byte → Memory → Memory
  | _, [], m => m
  | a, b :: bs, m => placeBytes fontBase (a + 1) bs (Memory.write fontBase m a b)

/-- Memory after the zero fill, the font and the image (R125, R127): unlisted addresses already read
as the font and the zeros. -/
def loadedMemory (fontBase : Nat) (image : List Byte) : Memory :=
  placeBytes fontBase programBase image []

/-- `Load(image)` (R125): `none` is `Err(ImageTooLarge)`, checked before anything is written (R113).
Keys are not reset (10_state R26); the parameters are no state, and the RAND source goes on (log 12). -/
def load (image : List Byte) (s : State) : Option State :=
  if maxImage < image.length then none
  else some { State.reset with
    mem := loadedMemory s.params.fontBase.val image
    keys := s.keys
    params := s.params
    draws := s.draws }

end Sys2Proof.Machine
end

