-- ==== Sys2Proof/Machine/HostOps.lean ====
section
/-!
DEFINITION. The block's interface (60_exceptions R119-R122): the operations the host calls one at a
time, their results, the lifecycle (70_reset R130), the frame and the single step, and the end of a
run (R136).
-/

namespace Sys2Proof.Machine

open Sys2Proof

/-- The error taxonomy, by name (60_exceptions R105). -/
inductive ErrorKind where
  | unknownOpcode
  | stackOverflow
  | stackUnderflow
  | addressOutOfRange
  | imageTooLarge
deriving DecidableEq, Repr

/-- The spec's own index of the errors (R105, D35). -/
def ErrorKind.code : ErrorKind → Nat
  | .unknownOpcode => 1
  | .stackOverflow => 2
  | .stackUnderflow => 3
  | .addressOutOfRange => 4
  | .imageTooLarge => 5

/-- The result of a cycle (R119): `Ok`, an error, or `Halted(f)`. -/
inductive CycleResult where
  | ok
  | errUnknownOpcode (w pc : Word)
  | errStackOverflow
  | errStackUnderflow
  | halted (f : FatalFault)
deriving DecidableEq, Repr

/-- The record `UnknownOpcode(w, pc)` on the diagnostic output (R106, D30). -/
structure Diagnostic where
  word : Word
  pc   : Word
deriving DecidableEq, Repr

/-- The result of an instruction run in `Running`: it is fatal exactly when it moved to `Halted`
(R111). -/
def instrResult : Result → CycleResult
  | .next t =>
    match t.mode with
    | .halted .stackOverflow => .errStackOverflow
    | .halted .stackUnderflow => .errStackUnderflow
    | .halted .unknownOpcode => .halted .unknownOpcode
    | .running => .ok
    | .awaitingKey _ _ => .ok
  | .fault _ => .ok
  | .refused _ => .ok

/-- What a cycle that starts in `s` returns (30_encoding R59, 60_exceptions R106-R112). An output,
computed from the state (10_state R31; log 7). -/
def cycleResult (s : State) : CycleResult :=
  match s.mode with
  | .halted f => .halted f
  | .awaitingKey _ _ => .ok
  | .running =>
    match decode s.fetch with
    | .unknown w => .errUnknownOpcode w s.pc
    | .instr i => instrResult (exec i s)

/-- What a cycle that starts in `s` emits on the diagnostic output (R106). -/
def cycleDiagnostic (s : State) : Option Diagnostic :=
  match s.mode with
  | .halted _ => none
  | .awaitingKey _ _ => none
  | .running =>
    match decode s.fetch with
    | .unknown w =>
      match s.params.unknownPolicy with
      | .nopDiagnostic => some { word := w, pc := s.pc }
      | .halt => none
    | .instr _ => none

/-- The state after a cycle: the step's next state. A step that answered no next state would leave
the state as it was; none does. -/
def cycleState (s : State) : State :=
  match step s with
  | .next t => t
  | .fault _ => s
  | .refused _ => s

/-- `SetKeys(k)` (R119): the one state write outside the engine's operations. -/
def setKeys (k : KeySet) (s : State) : State := { s with keys := k }

/-- The debug snapshot (R122). -/
structure Snapshot where
  v     : Vector Byte 16
  i     : Word
  pc    : Word
  sp    : Fin 17
  stack : Vector Word 16
  dt    : Byte
  st    : Byte
  mode  : Mode
  disp  : Display
deriving DecidableEq, Repr

/-- `Snapshot()` (R119, R122). -/
def snapshot (s : State) : Snapshot where
  v := s.v
  i := s.i
  pc := s.pc
  sp := s.sp
  stack := s.stack
  dt := s.dt
  st := s.st
  mode := s.mode
  disp := s.disp

/-- The host's operations (R119). -/
inductive HostOp where
  | load (image : List Byte)
  | cycle
  | tick
  | setKeys (k : KeySet)
  | display
  | sound
  | snapshot
deriving DecidableEq, Repr

/-- Their results (R119). `undefinedOperation` is the model's answer to an operation other than
`Load` before the first load, on which the spec defines none (70_reset R130; log 8). -/
inductive HostResult where
  | done
  | imageTooLarge
  | cycle (r : CycleResult) (d : Option Diagnostic)
  | display (d : Display)
  | sound (on : Bool)
  | snapshot (s : Snapshot)
  | undefinedOperation
deriving DecidableEq, Repr

/-- The lifecycle (70_reset R130): `Uninitialized` until the first successful load. The key lines
are the host's, so they have a value before it (log 8). -/
inductive Block where
  | uninitialized (keys : KeySet) (params : Params)
  | loaded (s : State)
deriving DecidableEq, Repr

/-- The state a first load starts from: only its keys and parameters are kept by `load`. -/
def Block.blank (keys : KeySet) (params : Params) : State :=
  { State.reset with keys := keys, params := params }

/-- One operation on a loaded block (R119). -/
def performLoaded (op : HostOp) (s : State) : State × HostResult :=
  match op with
  | .load image =>
    match load image s with
    | some t => (t, .done)
    | none => (s, .imageTooLarge)
  | .cycle => (cycleState s, .cycle (cycleResult s) (cycleDiagnostic s))
  | .tick => (Sys2Proof.Machine.tick s, .done)
  | .setKeys k => (Sys2Proof.Machine.setKeys k s, .done)
  | .display => (s, .display s.disp)
  | .sound => (s, .sound (soundActive s))
  | .snapshot => (s, .snapshot (Sys2Proof.Machine.snapshot s))

/-- One operation before the first load (70_reset R130): only `Load` is defined. -/
def performUninitialized (op : HostOp) (keys : KeySet) (params : Params) : Block × HostResult :=
  match op with
  | .load image =>
    match load image (Block.blank keys params) with
    | some t => (.loaded t, .done)
    | none => (.uninitialized keys params, .imageTooLarge)
  | .cycle => (.uninitialized keys params, .undefinedOperation)
  | .tick => (.uninitialized keys params, .undefinedOperation)
  | .setKeys _ => (.uninitialized keys params, .undefinedOperation)
  | .display => (.uninitialized keys params, .undefinedOperation)
  | .sound => (.uninitialized keys params, .undefinedOperation)
  | .snapshot => (.uninitialized keys params, .undefinedOperation)

/-- One operation (R119): the host issues one at a time, and each is atomic. -/
def perform (op : HostOp) : Block → Block × HostResult
  | .uninitialized keys params => performUninitialized op keys params
  | .loaded s => ((.loaded (performLoaded op s).1), (performLoaded op s).2)

/-- A sequence of operations, with their results in order. -/
def performAll : List HostOp → Block → Block × List HostResult
  | [], b => (b, [])
  | op :: ops, b =>
    let r := perform op b
    let rest := performAll ops r.1
    (rest.1, r.2 :: rest.2)

/-- A frame (R120): set the keys, `CYCLES_PER_FRAME` cycles (an argument, log 13), one tick, publish
the display. -/
def frameOps (cyclesPerFrame : Nat) (polled : KeySet) : List HostOp :=
  .setKeys polled :: (List.replicate cyclesPerFrame .cycle ++ [.tick, .display])

/-- A single step while paused (R121): one cycle, one tick, the snapshot. -/
def singleStepOps : List HostOp := [.cycle, .tick, .snapshot]

/-- The two ends of a run (70_reset R136, D36). -/
inductive RunEnd where
  | faulted (f : FatalFault)
  | spin
deriving DecidableEq, Repr

/-- Whether a run has ended when a cycle leaves `s` (R136): `Halted`, or a jump to itself at PC. -/
def runEnd (s : State) : Option RunEnd :=
  match s.mode with
  | .halted f => some (.faulted f)
  | .awaitingKey _ _ => none
  | .running =>
    match decode s.fetch with
    | .instr (.jp nnn) => if zextAddr nnn = s.pc then some .spin else none
    | _ => none

/-- The run of a loaded block under a sequence of operations: it ends at the first cycle after which
`runEnd` holds, with the state right after that cycle (R136); `none` if no cycle of the sequence
ends it. DESIGN CHOICE (log 20): R136 does not say what a second load before an end does to a run; here
the run goes on through it, and an end of the reloaded program is the run's end. -/
def firstEnd : List HostOp → State → Option (RunEnd × State)
  | [], _ => none
  | .cycle :: ops, s =>
    match runEnd (cycleState s) with
    | some e => some (e, cycleState s)
    | none => firstEnd ops (cycleState s)
  | op :: ops, s => firstEnd ops (performLoaded op s).1

end Sys2Proof.Machine
end

