-- ==== Sys2Proof/Safety.lean ====
section
/-!
DEFINITION. The terms in which claims are stated: which components a step leaves unchanged, and the
invariant that every operation of the block keeps.
-/

namespace Sys2Proof.Machine

open Sys2Proof

/-- The components of the Machine State (10_state R13), and the model's own two. -/
inductive Component where
  | v | i | pc | stack | sp | dt | st | mode | disp | keys | mem | params | draws
deriving DecidableEq, Repr

/-- `c` holds in `t` what it holds in `s`: every register, stack entry and pixel, and every byte of
memory as it is read. -/
def Unchanged (c : Component) (s t : State) : Prop :=
  match c with
  | .v => ∀ r, t.getV r = s.getV r
  | .i => t.i = s.i
  | .pc => t.pc = s.pc
  | .stack => ∀ j, t.stackAt j = s.stackAt j
  | .sp => t.sp = s.sp
  | .dt => t.dt = s.dt
  | .st => t.st = s.st
  | .mode => t.mode = s.mode
  | .disp => ∀ c r, Display.pixel t.disp c r = Display.pixel s.disp c r
  | .keys => t.keys = s.keys
  | .mem => ∀ a, t.readByte a = s.readByte a
  | .params => t.params = s.params
  | .draws => t.draws = s.draws

/-- The frame: every component outside `cs` is unchanged (10_state R33). -/
def ChangesOnly (cs : List Component) (s t : State) : Prop :=
  ∀ c, c ∉ cs → Unchanged c s t

/-- What each mode says of the word at PC: a key wait stands on its LD Vx, K (45_timers R102), and a
halt stands on the faulting word, with the stack as the fault found it (60_exceptions R111). -/
def State.modeCoherent (s : State) : Prop :=
  match s.mode with
  | .running => True
  | .awaitingKey x _ => decode s.fetch = .instr (.ldVxK x)
  | .halted .stackOverflow => s.sp = 16 ∧ ∃ nnn, decode s.fetch = .instr (.call nnn)
  | .halted .stackUnderflow => s.sp = 0 ∧ decode s.fetch = .instr .ret
  | .halted .unknownOpcode =>
    s.params.unknownPolicy = .halt ∧ decode s.fetch = .unknown s.fetch

/-- Memory has its canonical form (log 4). -/
def State.memWf (s : State) : Prop := Memory.wf s.params.fontBase.val s.mem = true

/-- The invariant of the machine. -/
structure State.Inv (s : State) : Prop where
  mem  : s.memWf
  mode : s.modeCoherent

/-- The invariant of the block: a loaded block's state meets `Inv`. -/
def Block.Inv : Block → Prop
  | .uninitialized _ _ => True
  | .loaded s => s.Inv

/-- `op` is not a load. -/
def HostOp.notLoad : HostOp → Bool
  | .load _ => false
  | .cycle => true
  | .tick => true
  | .setKeys _ => true
  | .display => true
  | .sound => true
  | .snapshot => true

/-- The next-PC table of 10_state R18, row by row: the skips, the transfers, the key wait, a CALL
with a full stack and a RET with an empty one; every other instruction goes to PC + 2. -/
def nextPcTable (i : Instr) (s : State) : Word :=
  match i with
  | .seImm x kk => if s.getV x = kk then s.pc + 4 else s.pc + 2
  | .sneImm x kk => if s.getV x ≠ kk then s.pc + 4 else s.pc + 2
  | .seReg x y => if s.getV x = s.getV y then s.pc + 4 else s.pc + 2
  | .sneReg x y => if s.getV x ≠ s.getV y then s.pc + 4 else s.pc + 2
  | .skp x => if s.keyDown (lowNibble (s.getV x)) = true then s.pc + 4 else s.pc + 2
  | .sknp x => if s.keyDown (lowNibble (s.getV x)) = false then s.pc + 4 else s.pc + 2
  | .jp nnn => nnn.setWidth 16
  | .jpV0 nnn => nnn.setWidth 16 + (s.getV 0).setWidth 16
  | .call nnn => if s.sp = 16 then s.pc else nnn.setWidth 16
  | .ret => if s.sp = 0 then s.pc else s.stackAt (s.sp.val - 1)
  | .ldVxK _ => s.pc
  | _ => s.pc + 2

/-- A sprite bit equal to 1 at row `r`, column `c`: bit 7 is the leftmost (44_display R91, R93). -/
def spriteBit (s : State) (r c : Nat) : Bool := (s.readByte (s.indexAddr r)).getLsbD (7 - c)

/-- The column that sprite column `c` of a draw with `Vx` lands on (44_display R93). -/
def sprColumn (s : State) (x : Reg) (c : Nat) : Fin 64 := Fin.ofNat 64 ((s.getV x).toNat % 64 + c)

/-- The row that sprite row `r` of a draw with `Vy` lands on (44_display R93). -/
def sprRow (s : State) (y : Reg) (r : Nat) : Fin 32 := Fin.ofNat 32 ((s.getV y).toNat % 32 + r)

/-- Some pixel went from set to unset. -/
def SomePixelUnset (s t : State) : Prop :=
  ∃ c r, Display.pixel s.disp c r = true ∧ Display.pixel t.disp c r = false

/-- The flag outcomes of VF, row by row (10_state R16): the seven flag writers; the instructions that
write VF only when they name it as a destination of data; and all others, which leave it. -/
def VfOutcome (i : Instr) (s t : State) : Prop :=
  match i with
  | .addImm x kk => t.getV VF = if 255 < (s.getV x).toNat + kk.toNat then 1 else 0
  | .addReg x y => t.getV VF = if 255 < (s.getV x).toNat + (s.getV y).toNat then 1 else 0
  | .sub x y => t.getV VF = if (s.getV y).toNat ≤ (s.getV x).toNat then 1 else 0
  | .shr x y => t.getV VF = if (s.shiftOperand x y).getLsbD 0 = true then 1 else 0
  | .subn x y => t.getV VF = if (s.getV x).toNat ≤ (s.getV y).toNat then 1 else 0
  | .shl x y => t.getV VF = if (s.shiftOperand x y).getLsbD 7 = true then 1 else 0
  | .drw _ _ _ => (t.getV VF = 1 ∧ SomePixelUnset s t) ∨ (t.getV VF = 0 ∧ ¬ SomePixelUnset s t)
  | .ldImm x _ => x ≠ VF → t.getV VF = s.getV VF
  | .ldReg x _ => x ≠ VF → t.getV VF = s.getV VF
  | .orReg x _ => x ≠ VF → s.params.logicVfReset = false → t.getV VF = s.getV VF
  | .andReg x _ => x ≠ VF → s.params.logicVfReset = false → t.getV VF = s.getV VF
  | .xorReg x _ => x ≠ VF → s.params.logicVfReset = false → t.getV VF = s.getV VF
  | .rnd x _ => x ≠ VF → t.getV VF = s.getV VF
  | .ldVxDt x => x ≠ VF → t.getV VF = s.getV VF
  | .ldVxMem x => x ≠ VF → t.getV VF = s.getV VF
  | _ => t.getV VF = s.getV VF

end Sys2Proof.Machine
end

