-- ==== Sys2Proof/Certificates/Slice0/Obligations.lean ====
section
/-!
DEFINITION. The statements about the KC8 core, for the provers. A statement whose docstring says
"derived" rests, in part or whole, on a sentence the spec marks as its own decision, as general
knowledge or as derived, or on a choice of the model; the docstring names it.
-/

open Sys2Proof Sys2Proof.Machine

/-! ### Encoding -/

/-- Decoding an encoded well-formed instruction gives it back with every operand (derived: the decode
of 30_encoding R52 marks 21 encodings as general knowledge, G1-G10). -/
def Obligations.DecodeInvertsEncode : Prop :=
  ∀ i : Instr, i.wf = true → decode (encode i) = .instr i

/-- A word that decodes to an instruction is that instruction's word, and the instruction is well
formed: each word has one meaning (derived, as above; SYS excludes 0x00E0 and 0x00EE, R55, log 15). -/
def Obligations.EncodeInvertsDecode : Prop :=
  ∀ (w : Word) (i : Instr), decode w = .instr i → encode i = w ∧ i.wf = true

/-- The unknown words are exactly the five patterns of 30_encoding R54 (derived: R54 is marked
"derived: from rule R52"). -/
def Obligations.UnknownWordsAreTheFivePatterns : Prop :=
  ∀ w : Word,
    (∀ w', decode w = .unknown w' → w' = w) ∧
    (decode w = .unknown w ↔
      (w.extractLsb' 12 4 = 0x5#4 ∧ w.extractLsb' 0 4 ≠ 0x0#4) ∨
      (w.extractLsb' 12 4 = 0x8#4 ∧
        w.extractLsb' 0 4 ∈ [0x8#4, 0x9#4, 0xA#4, 0xB#4, 0xC#4, 0xD#4, 0xF#4]) ∨
      (w.extractLsb' 12 4 = 0x9#4 ∧ w.extractLsb' 0 4 ≠ 0x0#4) ∨
      (w.extractLsb' 12 4 = 0xE#4 ∧ w.extractLsb' 0 8 ∉ [0x9E#8, 0xA1#8]) ∨
      (w.extractLsb' 12 4 = 0xF#4 ∧
        w.extractLsb' 0 8 ∉ [0x07#8, 0x0A#8, 0x15#8, 0x18#8, 0x1E#8, 0x29#8, 0x33#8, 0x55#8, 0x65#8]))

/-- Words written out from the spec's encodings decode to what they stand for (derived: sanity, one
or two words of each family). -/
def Obligations.SampleWordsDecodeAsTheSpecSays : Prop :=
  decode 0b0000000011100000#16 = .instr .cls ∧
  decode 0b0000000011101110#16 = .instr .ret ∧
  decode 0b0000000100100011#16 = .instr (.sys 0x123) ∧
  decode 0b0010001100000000#16 = .instr (.call 0x300) ∧
  decode 0b0011001100010000#16 = .instr (.seImm 3 0x10) ∧
  decode 0b0110000000000101#16 = .instr (.ldImm 0 5) ∧
  decode 0b0111000011111111#16 = .instr (.addImm 0 255) ∧
  decode 0b1000000100100100#16 = .instr (.addReg 1 2) ∧
  decode 0b1000111101101110#16 = .instr (.shl 15 6) ∧
  decode 0b1010001100000000#16 = .instr (.ldI 0x300) ∧
  decode 0b1101000000010101#16 = .instr (.drw 0 1 5) ∧
  decode 0b1110001010011110#16 = .instr (.skp 2) ∧
  decode 0b1111000100001010#16 = .instr (.ldVxK 1) ∧
  decode 0b1111001001100101#16 = .instr (.ldVxMem 2) ∧
  decode 0b0101000100100001#16 = .unknown 0x5121

/-! ### The cycle -/

/-- When the machine runs and the two bytes at PC and PC + 1 (each address masked) decode to `i`, a
step is `exec i` and nothing else: no shared epilogue moves PC (derived: the masking of the fetch is
decision D2). -/
def Obligations.StepRunsTheDecodedInstruction : Prop :=
  ∀ (s : State) (hi lo : Byte) (i : Instr),
    s.mode = .running → s.readByte s.pc.toNat = hi → s.readByte (s.pc.toNat + 1) = lo →
    decodeBytes hi lo = .instr i → step s = exec i s

/-- 30_encoding R59: what a cycle does and returns in each mode; one that returns a fatal fault has
moved the machine to `Halted` (derived: the result of an unknown word, and that it is fatal under policy
Halt, are decisions D5 and D30). -/
def Obligations.CycleFollowsTheMode : Prop :=
  ∀ s : State,
    (∀ f, s.mode = .halted f → step s = .next s ∧ cycleResult s = .halted f) ∧
    (∀ x last, s.mode = .awaitingKey x last →
      step s = keyWaitStep x last s ∧ cycleResult s = .ok) ∧
    (s.mode = .running →
      (∀ w, decode s.fetch = .unknown w →
        step s = unknownOpcodeStep s ∧ cycleResult s = .errUnknownOpcode s.fetch s.pc ∧
        (s.params.unknownPolicy = .halt →
          ∃ t, step s = .next t ∧ t.mode = .halted .unknownOpcode)) ∧
      (∀ i, decode s.fetch = .instr i → ∃ t, step s = exec i s ∧ exec i s = .next t ∧
        (t.mode = .halted .stackOverflow ∧ cycleResult s = .errStackOverflow ∨
          t.mode = .halted .stackUnderflow ∧ cycleResult s = .errStackUnderflow ∨
          (∀ f, t.mode ≠ .halted f) ∧ cycleResult s = .ok)))

/-- Every step of every state answers a next state: no fault outcome and no refusal exists on this
machine (derived: 20_memory R44 and 60_exceptions R109 are marked derived; faults are next states by
log 6). -/
def Obligations.EveryStepAnswersANextState : Prop :=
  ∀ s : State, ∃ t, step s = .next t

/-- 10_state R18: PC starts at 0x200; the fetch reads the bytes at PC and PC + 1; every instruction
answers a next state whose PC is the table's; CALL pushes PC + 2, or halts on a full stack, as RET does
on an empty one; the key wait and an unknown word move PC as the table says (derived: that a key is
pressed when it is down and was up in the snapshot is decision D19, that RET on an empty stack keeps PC
is D31, PC + 2 after an unknown word is D5, the modulus of PC is D3; JP V0 under `JUMP_OFFSET_REG = Vx`
is in JumpsSetThePc). -/
def Obligations.NextPcFollowsTheTable : Prop :=
  State.reset.pc = 0x200 ∧
  (∀ s : State, s.fetch = s.readByte s.pc.toNat ++ s.readByte (s.pc.toNat + 1)) ∧
  (∀ (i : Instr) (s : State), (∀ nnn, i = .jpV0 nnn → s.params.jumpOffsetReg = .v0) →
    ∃ t, exec i s = .next t ∧ t.pc = nextPcTable i s ∧
      (∀ nnn, i = .call nnn → s.sp ≠ 16 → t.stackAt s.sp.val = s.pc + 2) ∧
      (∀ nnn, i = .call nnn → s.sp = 16 → t.mode = .halted .stackOverflow) ∧
      (i = .ret → s.sp = 0 → t.mode = .halted .stackUnderflow)) ∧
  (∀ (s : State) (x : Reg) (last : KeySet), s.mode = .awaitingKey x last →
    ∃ t, step s = .next t ∧ t.pc = if s.keys &&& ~~~last = 0 then s.pc else s.pc + 2) ∧
  (∀ (s : State) (w : Word), s.mode = .running → decode s.fetch = .unknown w →
    s.params.unknownPolicy = .nopDiagnostic → ∃ t, step s = .next t ∧ t.pc = s.pc + 2)

/-- The flag outcomes of VF over all instructions and the key wait (10_state R16; derived: that the
flag remains in VF with `x = F` is decision D6, the shifted register D7, VF after the logic operations
D8, VF of a draw with `n = 0` D16). -/
def Obligations.VfFollowsTheFlagTable : Prop :=
  (∀ (i : Instr) (s t : State), exec i s = .next t → VfOutcome i s t) ∧
  (∀ (x : Reg) (last : KeySet) (s t : State), x ≠ VF → keyWaitStep x last s = .next t →
    t.getV VF = s.getV VF)

/-! ### Invariants and whole-machine rules -/

/-- The invariant holds right after reset (derived: the canonical form is the model's, log 4). -/
def Obligations.ResetMeetsTheInvariant : Prop := State.reset.Inv

/-- Every step keeps the invariant: memory stays canonical, a key wait stands on its LD Vx, K, and a
halt stands on the faulting word with the stack as it found it (derived: the canonical form is log 4,
the place of PC in a key wait is decision D19, in a halt R111 and D31). -/
def Obligations.EveryStepKeepsTheInvariant : Prop :=
  ∀ s t : State, s.Inv → step s = .next t → t.Inv

/-- So does every sequence of the host's operations, from a loaded or an uninitialized block
(derived, as above; 60_exceptions R119 is decision D1). -/
def Obligations.HostOperationsKeepTheInvariant : Prop :=
  ∀ (ops : List HostOp) (b : Block), b.Inv → (performAll ops b).1.Inv

/-- States with canonical memories that agree on every component, memory byte by byte, are equal
data (derived: the canonical form is the model's, log 4). -/
def Obligations.StatesThatReadAlikeAreEqual : Prop :=
  ∀ s t : State, s.memWf → t.memWf → (∀ c, Unchanged c s t) → t = s

/-- A store is seen by the next fetch, and by no other byte of the fetched word (derived: 20_memory
R47 is decision D23, the masking D2; the canonical memory assumed is log 4). -/
def Obligations.NextFetchSeesAStore : Prop :=
  ∀ (s : State) (a : Nat) (b : Byte), s.memWf →
    (s.writeByte a b).fetch =
      (if a % 4096 = s.pc.toNat % 4096 then b else s.readByte s.pc.toNat) ++
      (if a % 4096 = (s.pc.toNat + 1) % 4096 then b else s.readByte (s.pc.toNat + 1))

/-- Which mode a cycle leaves and enters: a running machine halts exactly on CALL at depth 16, RET at
depth 0 or an unknown word under policy Halt, and waits exactly after LD Vx, K; a key wait ends
exactly on a new key and never halts; a halt stays (derived: 10_state R24 and 60_exceptions R113 with
decisions D5, D19, D31). -/
def Obligations.ModeChangesOnlyAsListed : Prop :=
  ∀ s t : State, step s = .next t →
    (s.mode = .running →
      ((∃ f, t.mode = .halted f) ↔
        (∃ nnn, decode s.fetch = .instr (.call nnn) ∧ s.sp = 16) ∨
        (decode s.fetch = .instr .ret ∧ s.sp = 0) ∨
        (decode s.fetch = .unknown s.fetch ∧ s.params.unknownPolicy = .halt)) ∧
      (∀ x last, t.mode = .awaitingKey x last ↔
        decode s.fetch = .instr (.ldVxK x) ∧ last = s.keys)) ∧
    (∀ x last, s.mode = .awaitingKey x last →
      (s.keys &&& ~~~last ≠ 0 → t.mode = .running) ∧
      (s.keys &&& ~~~last = 0 → t.mode = .awaitingKey x s.keys)) ∧
    (∀ f, s.mode = .halted f → t.mode = .halted f)

/-- 60_exceptions R111: a fatal fault changes exactly `Mode`; the cycle's result carries it (derived:
KC8 says so for StackOverflow alone, for every fatal fault it is decision D31; that an unknown word is
fatal under policy Halt is D5). -/
def Obligations.FatalFaultChangesOnlyTheMode : Prop :=
  ∀ (s t : State) (f : FatalFault), s.mode = .running → step s = .next t → t.mode = .halted f →
    t = { s with mode := .halted f } ∧
    cycleResult s =
      (match f with
        | .stackOverflow => .errStackOverflow
        | .stackUnderflow => .errStackUnderflow
        | .unknownOpcode => .errUnknownOpcode s.fetch s.pc)

/-- `Halted` is terminal until a load: over any operations that are no load only the keys change,
a cycle returns `Halted(f)`, and a load that fits starts the machine again (derived: the tick in
`Halted` is decision D20). -/
def Obligations.HaltedStaysUntilALoad : Prop :=
  ∀ (s : State) (f : FatalFault), s.mode = .halted f →
    (∀ ops : List HostOp, (∀ op ∈ ops, op.notLoad = true) →
      ∃ k, (performAll ops (.loaded s)).1 = .loaded (setKeys k s)) ∧
    (performLoaded .cycle s).2 = .cycle (.halted f) none ∧
    (∀ image : List Byte, image.length ≤ 3584 →
      ∃ t, performLoaded (.load image) s = (t, .done) ∧ t.mode = .running)

/-- A cycle changes the display only by CLS and DRW (derived: 44_display R96; its sentence on the
renderer is about the host). -/
def Obligations.OnlyClsAndDrwWriteTheDisplay : Prop :=
  ∀ s t : State, step s = .next t → t.disp ≠ s.disp →
    s.mode = .running ∧ (decode s.fetch = .instr .cls ∨
      ∃ x y n, decode s.fetch = .instr (.drw x y n))

/-- A cycle changes memory only by LD B, Vx and LD [I], Vx (derived: 20_memory R34 lists the accesses
of encodings marked as general knowledge). -/
def Obligations.OnlyStoresWriteMemory : Prop :=
  ∀ s t : State, step s = .next t → t.mem ≠ s.mem →
    s.mode = .running ∧ (∃ x, decode s.fetch = .instr (.ldBVx x) ∨ decode s.fetch = .instr (.ldMemVx x))

/-- A cycle changes the stack only by CALL and its depth only by CALL and RET (derived: 10_state R21,
R22, with decision D18). -/
def Obligations.OnlyCallAndRetTouchTheStack : Prop :=
  ∀ s t : State, step s = .next t →
    (t.stack ≠ s.stack → s.mode = .running ∧ ∃ nnn, decode s.fetch = .instr (.call nnn)) ∧
    (t.sp ≠ s.sp → s.mode = .running ∧
      (decode s.fetch = .instr .ret ∨ ∃ nnn, decode s.fetch = .instr (.call nnn)))

/-- A cycle changes DT only by LD DT, Vx, ST only by LD ST, Vx, and I only by its three writers or a
register transfer under `LOADSTORE_I_INCREMENT` (derived: 10_state R17, R23; the increment is
decision D9). -/
def Obligations.TimersAndIndexHaveTheirWritersOnly : Prop :=
  ∀ s t : State, step s = .next t →
    (t.dt ≠ s.dt → s.mode = .running ∧ ∃ x, decode s.fetch = .instr (.ldDtVx x)) ∧
    (t.st ≠ s.st → s.mode = .running ∧ ∃ x, decode s.fetch = .instr (.ldStVx x)) ∧
    (t.i ≠ s.i → s.mode = .running ∧
      ((∃ nnn, decode s.fetch = .instr (.ldI nnn)) ∨
        (∃ x, decode s.fetch = .instr (.addIVx x) ∨ decode s.fetch = .instr (.ldFVx x)) ∨
        (s.params.loadStoreIncrement = true ∧
          ∃ x, decode s.fetch = .instr (.ldMemVx x) ∨ decode s.fetch = .instr (.ldVxMem x))))

/-- No cycle writes the keys (10_state R26) or the parameters (the model carries these read-only,
log 1) (derived). -/
def Obligations.NoCycleWritesKeysOrParameters : Prop :=
  ∀ s t : State, step s = .next t → t.keys = s.keys ∧ t.params = s.params

/-! ### Reset and load -/

/-- What reset leaves: the values KC8 states, and the spec's decisions D21 (I, the stack entries,
memory outside the font), D12 (the font at FONT_BASE) and D34 (the mode) (derived; the keys' first
value 0 is the model's choice, log 3, and is not stated). -/
def Obligations.ResetLeavesTheSpecsValues : Prop :=
  (∀ r, State.reset.getV r = 0) ∧ State.reset.pc = 0x200 ∧ State.reset.sp = 0 ∧
  State.reset.dt = 0 ∧ State.reset.st = 0 ∧
  (∀ c r, Display.pixel State.reset.disp c r = false) ∧
  State.reset.i = 0 ∧ (∀ j, State.reset.stackAt j = 0) ∧ State.reset.mode = .running ∧
  State.reset.readByte 0 = 0xF0 ∧ State.reset.readByte 79 = 0x80 ∧ State.reset.readByte 80 = 0 ∧
  State.reset.readByte 0x200 = 0 ∧ State.reset.readByte 0xFFF = 0

/-- `Load` refuses an image over 3584 bytes and then changes nothing; else it gives every component
its value, for every image and font base (derived: 70_reset R125, R126 with decisions D12, D21, D28,
D29, D34; the model's own clauses are the canonical memory `memWf`, log 4, and the parameters kept,
log 1 and log 12). -/
def Obligations.LoadDefinesEveryComponent : Prop :=
  ∀ (image : List Byte) (s : State),
    (3584 < image.length → performLoaded (.load image) s = (s, .imageTooLarge)) ∧
    (image.length ≤ 3584 → ∃ t, performLoaded (.load image) s = (t, .done) ∧
      (∀ r, t.getV r = 0) ∧ t.i = 0 ∧ t.pc = 0x200 ∧ t.sp = 0 ∧ (∀ j, t.stackAt j = 0) ∧
      t.dt = 0 ∧ t.st = 0 ∧ (∀ c r, Display.pixel t.disp c r = false) ∧ t.mode = .running ∧
      t.keys = s.keys ∧ t.params = s.params ∧ t.memWf ∧
      (∀ a < 4096, t.readByte a =
        if 0x200 ≤ a ∧ a < 0x200 + image.length then image.getD (a - 0x200) 0
        else if s.params.fontBase.val ≤ a ∧ a < s.params.fontBase.val + 80 then
          fontBytes.getD (a - s.params.fontBase.val) 0
        else 0))

/-! ### Control transfer -/

/-- SYS advances PC by 2 and does nothing else (derived: 40_control_flow R63 is general knowledge and
decision D4). -/
def Obligations.SysIsANoOp : Prop :=
  ∀ (nnn : BitVec 12) (s : State),
    (nnn ≠ 0x0E0 → nnn ≠ 0x0EE → decode (0x0#4 ++ nnn) = .instr (.sys nnn)) ∧
    ∃ t, exec (.sys nnn) s = .next t ∧ t.pc = s.pc + 2 ∧ ChangesOnly [.pc] s t

/-- JP and JP V0 set PC, with either offset register, and do nothing else (derived: 40_control_flow
R65, R67 are general knowledge; D10). -/
def Obligations.JumpsSetThePc : Prop :=
  ∀ (nnn : BitVec 12) (s : State),
    (decode (0x1#4 ++ nnn) = .instr (.jp nnn) ∧
      ∃ t, exec (.jp nnn) s = .next t ∧ t.pc = nnn.setWidth 16 ∧ ChangesOnly [.pc] s t) ∧
    (decode (0xB#4 ++ nnn) = .instr (.jpV0 nnn) ∧
      ∃ t, exec (.jpV0 nnn) s = .next t ∧
        t.pc = nnn.setWidth 16 +
          (match s.params.jumpOffsetReg with
            | .v0 => s.getV 0
            | .vx => s.getV (nnn.extractLsb' 8 4).toFin).setWidth 16 ∧
        ChangesOnly [.pc] s t)

/-- 40_control_flow R66: CALL pushes PC + 2 and jumps; with a full stack it halts and changes only
`Mode` (derived: that a push writes `Stack[SP]` and then increments SP is decision D18). -/
def Obligations.CallPushesTheReturnAddress : Prop :=
  ∀ (nnn : BitVec 12) (s : State),
    decode (0x2#4 ++ nnn) = .instr (.call nnn) ∧
    (s.sp ≠ 16 → ∃ t, exec (.call nnn) s = .next t ∧
      (∀ j, t.stackAt j = if j = s.sp.val then s.pc + 2 else s.stackAt j) ∧
      t.sp.val = s.sp.val + 1 ∧ t.pc = nnn.setWidth 16 ∧ ChangesOnly [.stack, .sp, .pc] s t) ∧
    (s.sp = 16 → exec (.call nnn) s = .next { s with mode := .halted .stackOverflow })

/-- 40_control_flow R64: RET pops the return address and keeps the entry; with an empty stack it
halts and changes only `Mode` (derived: that a pop decrements SP, then reads, and keeps the entry is
decision D18; that the underflow leaves PC, SP and the stack is D31). -/
def Obligations.RetPopsTheReturnAddress : Prop :=
  ∀ s : State,
    decode 0x00EE#16 = .instr .ret ∧
    (s.sp ≠ 0 → ∃ t, exec .ret s = .next t ∧ t.sp.val = s.sp.val - 1 ∧
      t.pc = s.stackAt (s.sp.val - 1) ∧ ChangesOnly [.sp, .pc] s t) ∧
    (s.sp = 0 → exec .ret s = .next { s with mode := .halted .stackUnderflow })

/-- CALL then RET comes back to the instruction after the CALL, with the depth and every register as
before (derived: KC8's scenario, 95_test_vectors L1.3). -/
def Obligations.CallThenRetComesBack : Prop :=
  ∀ (nnn : BitVec 12) (s : State), s.mode = .running → decode s.fetch = .instr (.call nnn) →
    s.sp ≠ 16 → ∃ t, step s = .next t ∧
      (decode t.fetch = .instr .ret → ∃ u, step t = .next u ∧ u.pc = s.pc + 2 ∧ u.sp = s.sp ∧
        ChangesOnly [.stack, .pc] s u)

/-- 60_exceptions R107: a cycle on CALL at depth 16 writes `Halted(StackOverflow)`, returns the error
and leaves everything else. -/
def Obligations.StackOverflowIsFatalAndPrecise : Prop :=
  ∀ (nnn : BitVec 12) (s : State), s.mode = .running → s.fetch = 0x2#4 ++ nnn → s.sp = 16 →
    cycleResult s = .errStackOverflow ∧
    ∃ t, step s = .next t ∧ t.mode = .halted .stackOverflow ∧ ChangesOnly [.mode] s t

/-- An unknown word: under NopDiagnostic PC + 2 and the diagnostic, under Halt only `Mode`; the cycle
returns the word and its address under both (derived: 60_exceptions R106 is decision D5, D30). -/
def Obligations.UnknownOpcodeFollowsThePolicy : Prop :=
  ∀ (s : State) (w : Word), s.mode = .running → decode s.fetch = .unknown w →
    cycleResult s = .errUnknownOpcode s.fetch s.pc ∧
    (s.params.unknownPolicy = .nopDiagnostic →
      cycleDiagnostic s = some { word := s.fetch, pc := s.pc } ∧
      ∃ t, step s = .next t ∧ t.pc = s.pc + 2 ∧ ChangesOnly [.pc] s t) ∧
    (s.params.unknownPolicy = .halt →
      cycleDiagnostic s = none ∧ step s = .next { s with mode := .halted .unknownOpcode })

/-! ### Skips -/

/-- The register skips move PC by 4 on their condition and by 2 otherwise, and change nothing else
(derived: the encodings of 41_skips R69-R72 are general knowledge, G4). -/
def Obligations.RegisterSkipsMoveThePc : Prop :=
  ∀ (x y : Reg) (kk : Byte) (s : State),
    (decode (0x3#4 ++ ((BitVec.ofFin x : BitVec 4) ++ kk)) = .instr (.seImm x kk) ∧
      ∃ t, exec (.seImm x kk) s = .next t ∧
        t.pc = (if s.getV x = kk then s.pc + 4 else s.pc + 2) ∧ ChangesOnly [.pc] s t) ∧
    (decode (0x4#4 ++ ((BitVec.ofFin x : BitVec 4) ++ kk)) = .instr (.sneImm x kk) ∧
      ∃ t, exec (.sneImm x kk) s = .next t ∧
        t.pc = (if s.getV x = kk then s.pc + 2 else s.pc + 4) ∧ ChangesOnly [.pc] s t) ∧
    (decode (0x5#4 ++ ((BitVec.ofFin x : BitVec 4) ++ ((BitVec.ofFin y : BitVec 4) ++ 0x0#4)))
        = .instr (.seReg x y) ∧
      ∃ t, exec (.seReg x y) s = .next t ∧
        t.pc = (if s.getV x = s.getV y then s.pc + 4 else s.pc + 2) ∧ ChangesOnly [.pc] s t) ∧
    (decode (0x9#4 ++ ((BitVec.ofFin x : BitVec 4) ++ ((BitVec.ofFin y : BitVec 4) ++ 0x0#4)))
        = .instr (.sneReg x y) ∧
      ∃ t, exec (.sneReg x y) s = .next t ∧
        t.pc = (if s.getV x = s.getV y then s.pc + 2 else s.pc + 4) ∧ ChangesOnly [.pc] s t)

/-- 45_timers_input_random R100, R101: SKP and SKNP test the key of `Vx`'s low nibble. -/
def Obligations.KeySkipsTestTheLowNibblesKey : Prop :=
  ∀ (x : Reg) (s : State),
    (decode (0xE#4 ++ ((BitVec.ofFin x : BitVec 4) ++ 0x9E#8)) = .instr (.skp x) ∧
      ∃ t, exec (.skp x) s = .next t ∧
        t.pc = (if s.keys.getLsbD ((s.getV x).toNat % 16) = true then s.pc + 4 else s.pc + 2) ∧
        ChangesOnly [.pc] s t) ∧
    (decode (0xE#4 ++ ((BitVec.ofFin x : BitVec 4) ++ 0xA1#8)) = .instr (.sknp x) ∧
      ∃ t, exec (.sknp x) s = .next t ∧
        t.pc = (if s.keys.getLsbD ((s.getV x).toNat % 16) = true then s.pc + 2 else s.pc + 4) ∧
        ChangesOnly [.pc] s t)

/-! ### Loads and arithmetic -/

/-- 42_alu R74: LD Vx, byte. -/
def Obligations.LdImmLoadsTheByte : Prop :=
  ∀ (x : Reg) (kk : Byte) (s : State),
    decode (0x6#4 ++ ((BitVec.ofFin x : BitVec 4) ++ kk)) = .instr (.ldImm x kk) ∧
    ∃ t, exec (.ldImm x kk) s = .next t ∧
      (∀ r, t.getV r = if r = x then kk else s.getV r) ∧
      t.pc = s.pc + 2 ∧ ChangesOnly [.v, .pc] s t

/-- 42_alu R75: ADD Vx, byte, the sum modulo 256, then the carry to VF (derived: that the carry remains
in VF with `x = F` is decision D6). -/
def Obligations.AddImmSetsTheCarry : Prop :=
  ∀ (x : Reg) (kk : Byte) (s : State),
    decode (0x7#4 ++ ((BitVec.ofFin x : BitVec 4) ++ kk)) = .instr (.addImm x kk) ∧
    ∃ t, exec (.addImm x kk) s = .next t ∧
      t.getV VF = (if 255 < (s.getV x).toNat + kk.toNat then 1 else 0) ∧
      (x ≠ VF → (t.getV x).toNat = ((s.getV x).toNat + kk.toNat) % 256) ∧
      (∀ r, r ≠ x → r ≠ VF → t.getV r = s.getV r) ∧
      t.pc = s.pc + 2 ∧ ChangesOnly [.v, .pc] s t

/-- LD Vx, Vy and the logic operations; with `LOGIC_VF_RESET` the latter then clear VF (derived:
42_alu R76-R79 are general knowledge; D8). -/
def Obligations.MovesAndLogicWriteVx : Prop :=
  ∀ (x y : Reg) (s : State),
    (decode (0x8#4 ++ ((BitVec.ofFin x : BitVec 4) ++ ((BitVec.ofFin y : BitVec 4) ++ 0x0#4)))
        = .instr (.ldReg x y) ∧
      ∃ t, exec (.ldReg x y) s = .next t ∧
        (∀ r, t.getV r = if r = x then s.getV y else s.getV r) ∧
        t.pc = s.pc + 2 ∧ ChangesOnly [.v, .pc] s t) ∧
    (decode (0x8#4 ++ ((BitVec.ofFin x : BitVec 4) ++ ((BitVec.ofFin y : BitVec 4) ++ 0x1#4)))
        = .instr (.orReg x y) ∧
      ∃ t, exec (.orReg x y) s = .next t ∧
        (∀ r, t.getV r = if r = VF ∧ s.params.logicVfReset = true then 0
          else if r = x then s.getV x ||| s.getV y else s.getV r) ∧
        t.pc = s.pc + 2 ∧ ChangesOnly [.v, .pc] s t) ∧
    (decode (0x8#4 ++ ((BitVec.ofFin x : BitVec 4) ++ ((BitVec.ofFin y : BitVec 4) ++ 0x2#4)))
        = .instr (.andReg x y) ∧
      ∃ t, exec (.andReg x y) s = .next t ∧
        (∀ r, t.getV r = if r = VF ∧ s.params.logicVfReset = true then 0
          else if r = x then s.getV x &&& s.getV y else s.getV r) ∧
        t.pc = s.pc + 2 ∧ ChangesOnly [.v, .pc] s t) ∧
    (decode (0x8#4 ++ ((BitVec.ofFin x : BitVec 4) ++ ((BitVec.ofFin y : BitVec 4) ++ 0x3#4)))
        = .instr (.xorReg x y) ∧
      ∃ t, exec (.xorReg x y) s = .next t ∧
        (∀ r, t.getV r = if r = VF ∧ s.params.logicVfReset = true then 0
          else if r = x then s.getV x ^^^ s.getV y else s.getV r) ∧
        t.pc = s.pc + 2 ∧ ChangesOnly [.v, .pc] s t)

/-- 42_alu R80: ADD Vx, Vy, the sum modulo 256, then the carry to VF (derived: that the carry remains in
VF with `x = F` is decision D6). -/
def Obligations.AddRegSetsTheCarry : Prop :=
  ∀ (x y : Reg) (s : State),
    decode (0x8#4 ++ ((BitVec.ofFin x : BitVec 4) ++ ((BitVec.ofFin y : BitVec 4) ++ 0x4#4)))
      = .instr (.addReg x y) ∧
    ∃ t, exec (.addReg x y) s = .next t ∧
      t.getV VF = (if 255 < (s.getV x).toNat + (s.getV y).toNat then 1 else 0) ∧
      (x ≠ VF → (t.getV x).toNat = ((s.getV x).toNat + (s.getV y).toNat) % 256) ∧
      (∀ r, r ≠ x → r ≠ VF → t.getV r = s.getV r) ∧
      t.pc = s.pc + 2 ∧ ChangesOnly [.v, .pc] s t

/-- 42_alu R81, R83: SUB and SUBN, the difference modulo 256, then not-borrow to VF; equal operands
give VF = 1 (derived: that the flag remains in VF with `x = F` is decision D6). -/
def Obligations.SubtractionsSetNotBorrow : Prop :=
  ∀ (x y : Reg) (s : State),
    (decode (0x8#4 ++ ((BitVec.ofFin x : BitVec 4) ++ ((BitVec.ofFin y : BitVec 4) ++ 0x5#4)))
        = .instr (.sub x y) ∧
      ∃ t, exec (.sub x y) s = .next t ∧
        t.getV VF = (if (s.getV y).toNat ≤ (s.getV x).toNat then 1 else 0) ∧
        (x ≠ VF → (t.getV x).toNat = ((s.getV x).toNat + 256 - (s.getV y).toNat) % 256) ∧
        (∀ r, r ≠ x → r ≠ VF → t.getV r = s.getV r) ∧
        t.pc = s.pc + 2 ∧ ChangesOnly [.v, .pc] s t) ∧
    (decode (0x8#4 ++ ((BitVec.ofFin x : BitVec 4) ++ ((BitVec.ofFin y : BitVec 4) ++ 0x7#4)))
        = .instr (.subn x y) ∧
      ∃ t, exec (.subn x y) s = .next t ∧
        t.getV VF = (if (s.getV x).toNat ≤ (s.getV y).toNat then 1 else 0) ∧
        (x ≠ VF → (t.getV x).toNat = ((s.getV y).toNat + 256 - (s.getV x).toNat) % 256) ∧
        (∀ r, r ≠ x → r ≠ VF → t.getV r = s.getV r) ∧
        t.pc = s.pc + 2 ∧ ChangesOnly [.v, .pc] s t)

/-- 42_alu R82, R84: SHR and SHL shift the source that `SHIFT_SOURCE` selects by one; VF takes the bit
shifted out (derived: which register is shifted is decision D7, stated here for both values; that the
flag remains in VF with `x = F` is D6). -/
def Obligations.ShiftsMoveTheBitOutToVf : Prop :=
  ∀ (x y : Reg) (s : State) (src : Byte),
    src = (match s.params.shiftSource with
      | .vx => s.getV x
      | .vy => s.getV y) →
    (decode (0x8#4 ++ ((BitVec.ofFin x : BitVec 4) ++ ((BitVec.ofFin y : BitVec 4) ++ 0x6#4)))
        = .instr (.shr x y) ∧
      ∃ t, exec (.shr x y) s = .next t ∧ (t.getV VF).toNat = src.toNat % 2 ∧
        (x ≠ VF → (t.getV x).toNat = src.toNat / 2) ∧
        (∀ r, r ≠ x → r ≠ VF → t.getV r = s.getV r) ∧
        t.pc = s.pc + 2 ∧ ChangesOnly [.v, .pc] s t) ∧
    (decode (0x8#4 ++ ((BitVec.ofFin x : BitVec 4) ++ ((BitVec.ofFin y : BitVec 4) ++ 0xE#4)))
        = .instr (.shl x y) ∧
      ∃ t, exec (.shl x y) s = .next t ∧ (t.getV VF).toNat = src.toNat / 128 ∧
        (x ≠ VF → (t.getV x).toNat = (2 * src.toNat) % 256) ∧
        (∀ r, r ≠ x → r ≠ VF → t.getV r = s.getV r) ∧
        t.pc = s.pc + 2 ∧ ChangesOnly [.v, .pc] s t)

/-! ### Address register and memory -/

/-- LD I, ADD I and LD F write I and leave VF (derived: 43_index_memory R85-R87 are general knowledge;
D11, D12, D13). -/
def Obligations.IndexInstructionsWriteI : Prop :=
  ∀ (nnn : BitVec 12) (x : Reg) (s : State),
    (decode (0xA#4 ++ nnn) = .instr (.ldI nnn) ∧
      ∃ t, exec (.ldI nnn) s = .next t ∧ t.i.toNat = nnn.toNat ∧
        t.pc = s.pc + 2 ∧ ChangesOnly [.i, .pc] s t) ∧
    (decode (0xF#4 ++ ((BitVec.ofFin x : BitVec 4) ++ 0x1E#8)) = .instr (.addIVx x) ∧
      ∃ t, exec (.addIVx x) s = .next t ∧
        t.i.toNat = (s.i.toNat + (s.getV x).toNat) % 65536 ∧
        t.pc = s.pc + 2 ∧ ChangesOnly [.i, .pc] s t) ∧
    (decode (0xF#4 ++ ((BitVec.ofFin x : BitVec 4) ++ 0x29#8)) = .instr (.ldFVx x) ∧
      ∃ t, exec (.ldFVx x) s = .next t ∧
        t.i.toNat = s.params.fontBase.val + 5 * ((s.getV x).toNat % 16) ∧
        t.pc = s.pc + 2 ∧ ChangesOnly [.i, .pc] s t)

/-- LD B, Vx stores the three decimal digits at I, I + 1, I + 2, each address masked, and no other
byte (derived: 43_index_memory R88 is general knowledge; D14; the canonical memory assumed is
log 4). -/
def Obligations.LdBStoresTheDecimalDigits : Prop :=
  ∀ (x : Reg) (s : State), s.memWf →
    decode (0xF#4 ++ ((BitVec.ofFin x : BitVec 4) ++ 0x33#8)) = .instr (.ldBVx x) ∧
    ∃ t, exec (.ldBVx x) s = .next t ∧
      (t.readByte (s.indexAddr 0)).toNat = (s.getV x).toNat / 100 ∧
      (t.readByte (s.indexAddr 1)).toNat = (s.getV x).toNat / 10 % 10 ∧
      (t.readByte (s.indexAddr 2)).toNat = (s.getV x).toNat % 10 ∧
      (∀ a, (∀ k < 3, maskAddr a ≠ maskAddr (s.indexAddr k)) → t.readByte a = s.readByte a) ∧
      t.pc = s.pc + 2 ∧ ChangesOnly [.mem, .pc] s t

/-- LD [I], Vx stores V0 to Vx from I on, each address masked, and no other byte; I moves only under
`LOADSTORE_I_INCREMENT` (derived: 43_index_memory R89 is general knowledge; D9; the canonical memory
assumed is log 4). -/
def Obligations.LdMemStoresTheRegisters : Prop :=
  ∀ (x : Reg) (s : State), s.memWf →
    decode (0xF#4 ++ ((BitVec.ofFin x : BitVec 4) ++ 0x55#8)) = .instr (.ldMemVx x) ∧
    ∃ t, exec (.ldMemVx x) s = .next t ∧
      (∀ k : Reg, k ≤ x → t.readByte (s.indexAddr k.val) = s.getV k) ∧
      (∀ a, (∀ k : Reg, k ≤ x → maskAddr a ≠ maskAddr (s.indexAddr k.val)) →
        t.readByte a = s.readByte a) ∧
      t.i = (if s.params.loadStoreIncrement = true then s.i + BitVec.ofNat 16 (x.val + 1) else s.i) ∧
      t.pc = s.pc + 2 ∧ ChangesOnly [.mem, .i, .pc] s t

/-- LD Vx, [I] loads V0 to Vx from I on, each address masked (derived: 43_index_memory R90 is general
knowledge; D9). -/
def Obligations.LdVxLoadsTheRegisters : Prop :=
  ∀ (x : Reg) (s : State),
    decode (0xF#4 ++ ((BitVec.ofFin x : BitVec 4) ++ 0x65#8)) = .instr (.ldVxMem x) ∧
    ∃ t, exec (.ldVxMem x) s = .next t ∧
      (∀ k : Reg, k ≤ x → t.getV k = s.readByte (s.indexAddr k.val)) ∧
      (∀ k : Reg, x < k → t.getV k = s.getV k) ∧
      t.i = (if s.params.loadStoreIncrement = true then s.i + BitVec.ofNat 16 (x.val + 1) else s.i) ∧
      t.pc = s.pc + 2 ∧ ChangesOnly [.v, .i, .pc] s t

/-! ### Display -/

/-- 44_display R92: CLS clears every pixel and leaves VF. -/
def Obligations.ClsClearsTheDisplay : Prop :=
  ∀ s : State,
    decode 0x00E0#16 = .instr .cls ∧
    ∃ t, exec .cls s = .next t ∧ (∀ c r, Display.pixel t.disp c r = false) ∧
      t.pc = s.pc + 2 ∧ ChangesOnly [.disp, .pc] s t

/-- DRW XORs the sprite at I onto the display: the pixels its set bits land on are toggled, wrapping
per pixel, and no others; VF is 1 if a pixel was unset, else 0 (derived: 44_display R93 with D16 for
n = 0 and D17 for the bit order). -/
def Obligations.DrwXorsTheSprite : Prop :=
  ∀ (x y n : Fin 16) (s : State),
    decode (0xD#4 ++ ((BitVec.ofFin x : BitVec 4) ++ ((BitVec.ofFin y : BitVec 4) ++
      (BitVec.ofFin n : BitVec 4)))) = .instr (.drw x y n) ∧
    ∃ t, exec (.drw x y n) s = .next t ∧
      (∀ r < n.val, ∀ c < 8, spriteBit s r c = true →
        Display.pixel t.disp (sprColumn s x c) (sprRow s y r) =
          !Display.pixel s.disp (sprColumn s x c) (sprRow s y r)) ∧
      (∀ p q, (∀ r < n.val, ∀ c < 8, spriteBit s r c = true →
          ¬ (p = sprColumn s x c ∧ q = sprRow s y r)) →
        Display.pixel t.disp p q = Display.pixel s.disp p q) ∧
      ((t.getV VF = 1 ∧ SomePixelUnset s t) ∨ (t.getV VF = 0 ∧ ¬ SomePixelUnset s t)) ∧
      (∀ r, r ≠ VF → t.getV r = s.getV r) ∧
      t.pc = s.pc + 2 ∧ ChangesOnly [.disp, .v, .pc] s t

/-- 44_display R94: the collision flag is 1 exactly when some sprite bit equal to 1 lands on a pixel
that was 1, and such a pixel becomes 0; VF is written by every draw (derived: VF = 0 with `n = 0` is
decision D16; the bit order, and the coordinates read before VF is written, are D17). -/
def Obligations.CollisionIsASetBitOnASetPixel : Prop :=
  ∀ (x y n : Fin 16) (s : State), ∃ t, exec (.drw x y n) s = .next t ∧
    (t.getV VF = 0 ∨ t.getV VF = 1) ∧
    (t.getV VF = 1 ↔ ∃ r < n.val, ∃ c < 8, spriteBit s r c = true ∧
      Display.pixel s.disp (sprColumn s x c) (sprRow s y r) = true) ∧
    (∀ r < n.val, ∀ c < 8, spriteBit s r c = true →
      Display.pixel s.disp (sprColumn s x c) (sprRow s y r) = true →
      Display.pixel t.disp (sprColumn s x c) (sprRow s y r) = false)

/-- Drawing the same sprite twice at the same place restores the display; after a first draw without
collision the second collides exactly when the sprite has a set bit (derived: KC8's scenario,
95_test_vectors L1.5, made general; the bit order is D17, `n = 0` is D16). -/
def Obligations.DrawingTwiceRestoresTheDisplay : Prop :=
  ∀ (x y n : Fin 16) (s : State), x ≠ VF → y ≠ VF →
    ∃ t u, exec (.drw x y n) s = .next t ∧ exec (.drw x y n) t = .next u ∧ u.disp = s.disp ∧
      (t.getV VF = 0 →
        (u.getV VF = 1 ↔ ∃ r < n.val, ∃ c < 8, spriteBit s r c = true))

/-! ### Timers, keys, random -/

/-- LD Vx, DT; LD DT, Vx; LD ST, Vx (derived: the encodings of 45_timers_input_random R97-R99 are
general knowledge, G9). -/
def Obligations.TimerInstructionsMoveTheTimers : Prop :=
  ∀ (x : Reg) (s : State),
    (decode (0xF#4 ++ ((BitVec.ofFin x : BitVec 4) ++ 0x07#8)) = .instr (.ldVxDt x) ∧
      ∃ t, exec (.ldVxDt x) s = .next t ∧ (∀ r, t.getV r = if r = x then s.dt else s.getV r) ∧
        t.pc = s.pc + 2 ∧ ChangesOnly [.v, .pc] s t) ∧
    (decode (0xF#4 ++ ((BitVec.ofFin x : BitVec 4) ++ 0x15#8)) = .instr (.ldDtVx x) ∧
      ∃ t, exec (.ldDtVx x) s = .next t ∧ t.dt = s.getV x ∧
        t.pc = s.pc + 2 ∧ ChangesOnly [.dt, .pc] s t) ∧
    (decode (0xF#4 ++ ((BitVec.ofFin x : BitVec 4) ++ 0x18#8)) = .instr (.ldStVx x) ∧
      ∃ t, exec (.ldStVx x) s = .next t ∧ t.st = s.getV x ∧
        t.pc = s.pc + 2 ∧ ChangesOnly [.st, .pc] s t)

/-- LD Vx, K enters the key wait with the keys as they are, PC still on the word (derived:
45_timers_input_random R102 with decision D19). -/
def Obligations.LdKEntersTheKeyWait : Prop :=
  ∀ (x : Reg) (s : State),
    decode (0xF#4 ++ ((BitVec.ofFin x : BitVec 4) ++ 0x0A#8)) = .instr (.ldVxK x) ∧
    ∃ t, exec (.ldVxK x) s = .next t ∧ t.mode = .awaitingKey x s.keys ∧ ChangesOnly [.mode] s t

/-- A cycle of the key wait: with no new key only the snapshot changes; the lowest new key ends the
wait, is written to Vx and moves PC past the word, and no instruction runs (derived:
45_timers_input_random R103 with decision D19). -/
def Obligations.KeyWaitEndsOnTheLowestNewKey : Prop :=
  ∀ (x : Reg) (last : KeySet) (s : State), s.mode = .awaitingKey x last →
    ((∀ k : Fin 16, s.keys.getLsbD k.val = true → last.getLsbD k.val = true) →
      ∃ t, step s = .next t ∧ t.mode = .awaitingKey x s.keys ∧ ChangesOnly [.mode] s t) ∧
    (∀ k : Fin 16, s.keys.getLsbD k.val = true → last.getLsbD k.val = false →
      (∀ j < k, s.keys.getLsbD j.val = true → last.getLsbD j.val = true) →
      ∃ t, step s = .next t ∧ t.mode = .running ∧ t.pc = s.pc + 2 ∧
        (∀ r, t.getV r = if r = x then BitVec.ofNat 8 k.val else s.getV r) ∧
        ChangesOnly [.v, .pc, .mode] s t)

/-- RND writes the drawn byte under the mask, for whatever byte is drawn, and counts the draw
(derived: 45_timers_input_random R104 is general knowledge; the draw is the free value of log 2). -/
def Obligations.RndMasksTheDrawnByte : Prop :=
  ∀ (x : Reg) (kk : Byte) (s : State),
    decode (0xC#4 ++ ((BitVec.ofFin x : BitVec 4) ++ kk)) = .instr (.rnd x kk) ∧
    (∃ t, exec (.rnd x kk) s = .next t ∧
      (∀ r, t.getV r = if r = x then Config.rand s.draws &&& kk else s.getV r) ∧
      t.draws = s.draws + 1 ∧ t.pc = s.pc + 2 ∧ ChangesOnly [.v, .pc, .draws] s t) ∧
    (∀ b : Byte, ∀ r, (rndWith b x kk s).getV r = if r = x then b &&& kk else s.getV r)

/-- A tick decrements both timers, floored at 0, and changes nothing else; in `Halted` it changes
nothing (derived: 60_exceptions R116 with decision D20). -/
def Obligations.TickCountsTheTimersDown : Prop :=
  ∀ s : State,
    (∀ f, s.mode = .halted f → tick s = s) ∧
    ((∀ f, s.mode ≠ .halted f) →
      (tick s).dt.toNat = s.dt.toNat - 1 ∧ (tick s).st.toNat = s.st.toNat - 1 ∧
      ChangesOnly [.dt, .st] s (tick s))

/-- A timer set to v reaches 0 after exactly v ticks and stays there (derived: 60_exceptions R117
marks it so; KC8's scenario is 95_test_vectors L1.6). -/
def Obligations.TimersReachZeroAfterTheirValueInTicks : Prop :=
  ∀ (n : Nat) (s : State), (∀ f, s.mode ≠ .halted f) →
    (tick^[n] s).dt.toNat = s.dt.toNat - n ∧ (tick^[n] s).st.toNat = s.st.toNat - n ∧
    ChangesOnly [.dt, .st] s (tick^[n] s)

/-- 60_exceptions R118: the sound output is ST > 0. -/
def Obligations.SoundIsOnWhileStIsPositive : Prop :=
  ∀ s : State, performLoaded .sound s = (s, .sound (decide (0 < s.st.toNat)))

/-- 60_exceptions R122: the debug snapshot copies V, I, PC, SP, the stack, the timers, Mode and the
display, and changes nothing. (derived: I and Mode in the snapshot are decision D32). -/
def Obligations.SnapshotCopiesTheState : Prop :=
  ∀ s : State, performLoaded .snapshot s =
    (s, .snapshot { v := s.v, i := s.i, pc := s.pc, sp := s.sp, stack := s.stack, dt := s.dt,
                    st := s.st, mode := s.mode, disp := s.disp })

/-! ### Frames and the end of a run -/

/-- A frame sets the keys, runs its cycles, ticks once whatever their number, and publishes the
display of the state it ends in (derived: 60_exceptions R120; `CYCLES_PER_FRAME` is an argument,
log 13). -/
def Obligations.FrameTicksOnceAfterItsCycles : Prop :=
  ∀ (n : Nat) (k : KeySet) (s t : State), t = tick (cycleState^[n] (setKeys k s)) →
    (performAll (frameOps n k) (.loaded s)).1 = .loaded t ∧
    (performAll (frameOps n k) (.loaded s)).2.getLast? = some (.display t.disp)

/-- Frames in a key wait: with no new key PC and V stay and the timers still count; a frame whose
first cycle sees a new key ends the wait (derived: KC8's scenario, 95_test_vectors L1.9; R103, R120,
D19). -/
def Obligations.TimersRunDuringTheKeyWait : Prop :=
  ∀ (n : Nat) (k last : KeySet) (x : Reg) (s : State), s.mode = .awaitingKey x last → 0 < n →
    (k &&& ~~~last = 0 →
      ∃ t, (performAll (frameOps n k) (.loaded s)).1 = .loaded t ∧ t.mode = .awaitingKey x k ∧
        t.dt.toNat = s.dt.toNat - 1 ∧ t.st.toNat = s.st.toNat - 1 ∧
        ChangesOnly [.mode, .keys, .dt, .st] s t) ∧
    (k &&& ~~~last ≠ 0 →
      ∃ t, (performAll (frameOps 1 k) (.loaded s)).1 = .loaded t ∧ t.mode = .running ∧
        t.pc = s.pc + 2 ∧ (∃ j : Fin 16, t.getV x = BitVec.ofNat 8 j.val ∧
          (k &&& ~~~last).getLsbD j.val = true) ∧
        t.dt.toNat = s.dt.toNat - 1 ∧ ChangesOnly [.v, .pc, .mode, .keys, .dt, .st] s t)

/-- Both ends of a run are fixed points of every later cycle (derived: 70_reset R136 is decision
D36). -/
def Obligations.RunEndsAreFixedPoints : Prop :=
  ∀ (s : State) (e : RunEnd) (n : Nat), runEnd s = some e → cycleState^[n] s = s ∧
    (e = .spin ↔ s.mode = .running ∧
      ∃ nnn, decode s.fetch = .instr (.jp nnn) ∧ nnn.setWidth 16 = s.pc) ∧
    (∀ f, e = .faulted f ↔ s.mode = .halted f)
end

