-- ==== Sys2Proof/Laws/Encoding.lean ====
section
/-!
SUPPORT. The fields of the words the encoder lays out, and a word rebuilt from its fields.
-/

namespace Sys2Proof

/-! ### The bits of a laid-out word -/

theorem getLsbD_wordNNN (o : BitVec 4) (nnn : BitVec 12) (j : Nat) :
    (wordNNN o nnn).getLsbD j = if j < 12 then nnn.getLsbD j else o.getLsbD (j - 12) :=
  BitVec.getLsbD_append

theorem getLsbD_wordXKK (o : BitVec 4) (x : Reg) (kk : Byte) (j : Nat) :
    (wordXKK o x kk).getLsbD j =
      if j < 12 then if j < 8 then kk.getLsbD j else (BitVec.ofFin x : BitVec 4).getLsbD (j - 8)
      else o.getLsbD (j - 12) := by
  refine (getLsbD_wordNNN o ((BitVec.ofFin x : BitVec 4) ++ kk) j).trans ?_
  split
  · exact BitVec.getLsbD_append
  · rfl

theorem getLsbD_wordXYN (o : BitVec 4) (x y n : Fin 16) (j : Nat) :
    (wordXYN o x y n).getLsbD j =
      if j < 12 then
        if j < 8 then
          if j < 4 then (BitVec.ofFin n : BitVec 4).getLsbD j
          else (BitVec.ofFin y : BitVec 4).getLsbD (j - 4)
        else (BitVec.ofFin x : BitVec 4).getLsbD (j - 8)
      else o.getLsbD (j - 12) := by
  refine (getLsbD_wordXKK o x ((BitVec.ofFin y : BitVec 4) ++ (BitVec.ofFin n : BitVec 4)) j).trans ?_
  split
  · split
    · exact BitVec.getLsbD_append
    · rfl
  · rfl

theorem getLsbD_wordOfBytes (hi lo : Byte) (j : Nat) :
    (wordOfBytes hi lo).getLsbD j = if j < 8 then lo.getLsbD j else hi.getLsbD (j - 8) :=
  BitVec.getLsbD_append

section Fields

variable (o : BitVec 4) (nnn : BitVec 12) (kk : Byte) (x y n : Fin 16)

@[simp] theorem fieldO_wordNNN : fieldO (wordNNN o nnn) = o := by
  apply BitVec.eq_of_getLsbD_eq
  intro j hj
  simp [fieldO, getLsbD_wordNNN, hj]

@[simp] theorem fieldNNN_wordNNN : fieldNNN (wordNNN o nnn) = nnn := by
  apply BitVec.eq_of_getLsbD_eq
  intro j hj
  simp [fieldNNN, getLsbD_wordNNN, hj]

@[simp] theorem fieldO_wordXKK : fieldO (wordXKK o x kk) = o := by
  apply BitVec.eq_of_getLsbD_eq
  intro j hj
  simp [fieldO, getLsbD_wordXKK, hj]

@[simp] theorem fieldX_wordXKK : fieldX (wordXKK o x kk) = x := by
  have : (wordXKK o x kk).extractLsb' 8 4 = BitVec.ofFin x := by
    apply BitVec.eq_of_getLsbD_eq
    intro j hj
    have h : 8 + j < 12 := by omega
    simp [getLsbD_wordXKK, hj, h]
  simp [fieldX, this]

@[simp] theorem fieldKK_wordXKK : fieldKK (wordXKK o x kk) = kk := by
  apply BitVec.eq_of_getLsbD_eq
  intro j hj
  have h : j < 12 := by omega
  simp [fieldKK, getLsbD_wordXKK, hj, h]

@[simp] theorem fieldO_wordXYN : fieldO (wordXYN o x y n) = o := by
  apply BitVec.eq_of_getLsbD_eq
  intro j hj
  simp [fieldO, getLsbD_wordXYN, hj]

@[simp] theorem fieldX_wordXYN : fieldX (wordXYN o x y n) = x := by
  have : (wordXYN o x y n).extractLsb' 8 4 = BitVec.ofFin x := by
    apply BitVec.eq_of_getLsbD_eq
    intro j hj
    have h : 8 + j < 12 := by omega
    simp [getLsbD_wordXYN, hj, h]
  simp [fieldX, this]

@[simp] theorem fieldY_wordXYN : fieldY (wordXYN o x y n) = y := by
  have : (wordXYN o x y n).extractLsb' 4 4 = BitVec.ofFin y := by
    apply BitVec.eq_of_getLsbD_eq
    intro j hj
    have h : 4 + j < 12 := by omega
    have h' : 4 + j < 8 := by omega
    simp [getLsbD_wordXYN, hj, h, h']
  simp [fieldY, this]

@[simp] theorem fieldN_wordXYN : fieldN (wordXYN o x y n) = n := by
  have : (wordXYN o x y n).extractLsb' 0 4 = BitVec.ofFin n := by
    apply BitVec.eq_of_getLsbD_eq
    intro j hj
    have h : j < 12 := by omega
    have h' : j < 8 := by omega
    simp [getLsbD_wordXYN, hj, h, h']
  simp [fieldN, this]

end Fields

/-! ### A word from its fields -/

theorem ofFin_fieldX (w : Word) : (BitVec.ofFin (fieldX w) : BitVec 4) = w.extractLsb' 8 4 := rfl

theorem ofFin_fieldY (w : Word) : (BitVec.ofFin (fieldY w) : BitVec 4) = w.extractLsb' 4 4 := rfl

theorem ofFin_fieldN (w : Word) : (BitVec.ofFin (fieldN w) : BitVec 4) = w.extractLsb' 0 4 := rfl

theorem wordNNN_fields (w : Word) : wordNNN (fieldO w) (fieldNNN w) = w := by
  apply BitVec.eq_of_getLsbD_eq
  intro j hj
  by_cases h : j < 12
  · simp [getLsbD_wordNNN, fieldNNN, h]
  · have : 12 + (j - 12) = j := by omega
    have h4 : j - 12 < 4 := by omega
    simp [getLsbD_wordNNN, fieldO, h, this, h4]

theorem wordXKK_fields (w : Word) : wordXKK (fieldO w) (fieldX w) (fieldKK w) = w := by
  apply BitVec.eq_of_getLsbD_eq
  intro j hj
  by_cases h8 : j < 8
  · have h12 : j < 12 := by omega
    simp [getLsbD_wordXKK, fieldKK, h8, h12]
  · by_cases h12 : j < 12
    · have h4 : j - 8 < 4 := by omega
      have : 8 + (j - 8) = j := by omega
      simp [getLsbD_wordXKK, ofFin_fieldX, h8, h12, h4, this]
    · have : 12 + (j - 12) = j := by omega
      have h4 : j - 12 < 4 := by omega
      simp [getLsbD_wordXKK, fieldO, h12, this, h4]

theorem wordXYN_fields (w : Word) : wordXYN (fieldO w) (fieldX w) (fieldY w) (fieldN w) = w := by
  apply BitVec.eq_of_getLsbD_eq
  intro j hj
  by_cases h4 : j < 4
  · have h8 : j < 8 := by omega
    have h12 : j < 12 := by omega
    simp [getLsbD_wordXYN, ofFin_fieldN, h4, h8, h12]
  · by_cases h8 : j < 8
    · have h12 : j < 12 := by omega
      have : 4 + (j - 4) = j := by omega
      have hb : j - 4 < 4 := by omega
      simp [getLsbD_wordXYN, ofFin_fieldY, h4, h8, h12, this, hb]
    · by_cases h12 : j < 12
      · have hb : j - 8 < 4 := by omega
        have : 8 + (j - 8) = j := by omega
        simp [getLsbD_wordXYN, ofFin_fieldX, h8, h12, hb, this]
      · have : 12 + (j - 12) = j := by omega
        have hb : j - 12 < 4 := by omega
        simp [getLsbD_wordXYN, fieldO, h12, this, hb]

/-- The two bytes of a word, put back together (20_memory R37, R38). -/
theorem wordOfBytes_bytes (w : Word) : wordOfBytes (highByte w) (lowByte w) = w := by
  apply BitVec.eq_of_getLsbD_eq
  intro j hj
  by_cases h8 : j < 8
  · simp [getLsbD_wordOfBytes, lowByte, h8]
  · have hb : j - 8 < 8 := by omega
    have : 8 + (j - 8) = j := by omega
    simp [getLsbD_wordOfBytes, highByte, h8, hb, this]

/-- A field of class 0 that is not CLS or RET is SYS (30_encoding R52, R55). -/
theorem decodeClass0_sys {nnn : BitVec 12} (h : (Instr.sys nnn).wf = true) :
    decodeClass0 (wordNNN 0 nnn) = .instr (.sys nnn) := by
  have hn : fieldNNN (wordNNN 0 nnn) = nnn := fieldNNN_wordNNN 0 nnn
  simp only [Instr.wf, Bool.and_eq_true, bne_iff_ne] at h
  have h0 : wordNNN 0 nnn ≠ 0x00E0#16 := fun he => h.1 (by rw [← hn, he]; decide)
  have h1 : wordNNN 0 nnn ≠ 0x00EE#16 := fun he => h.2 (by rw [← hn, he]; decide)
  rw [decodeClass0, if_neg h0, if_neg h1, hn]

end Sys2Proof
end

