-- ==== Sys2Proof/Laws/State.lean ====
section
/-!
SUPPORT. One lemma per field per update of State, and per accessor that an update does not touch,
true by rfl; the two-way updates (`skipIf`, `logicVf`, `transferI`) follow by cases.
-/

namespace Sys2Proof.Machine

open Sys2Proof

variable (s : State)

/-! ### setV -/

@[simp] theorem State.setV_v (r : Reg) (b : Byte) : (s.setV r b).v = s.v.set r.val b := rfl
@[simp] theorem State.setV_i (r : Reg) (b : Byte) : (s.setV r b).i = s.i := rfl
@[simp] theorem State.setV_pc (r : Reg) (b : Byte) : (s.setV r b).pc = s.pc := rfl
@[simp] theorem State.setV_stack (r : Reg) (b : Byte) : (s.setV r b).stack = s.stack := rfl
@[simp] theorem State.setV_sp (r : Reg) (b : Byte) : (s.setV r b).sp = s.sp := rfl
@[simp] theorem State.setV_dt (r : Reg) (b : Byte) : (s.setV r b).dt = s.dt := rfl
@[simp] theorem State.setV_st (r : Reg) (b : Byte) : (s.setV r b).st = s.st := rfl
@[simp] theorem State.setV_mode (r : Reg) (b : Byte) : (s.setV r b).mode = s.mode := rfl
@[simp] theorem State.setV_disp (r : Reg) (b : Byte) : (s.setV r b).disp = s.disp := rfl
@[simp] theorem State.setV_keys (r : Reg) (b : Byte) : (s.setV r b).keys = s.keys := rfl
@[simp] theorem State.setV_mem (r : Reg) (b : Byte) : (s.setV r b).mem = s.mem := rfl
@[simp] theorem State.setV_params (r : Reg) (b : Byte) : (s.setV r b).params = s.params := rfl
@[simp] theorem State.setV_draws (r : Reg) (b : Byte) : (s.setV r b).draws = s.draws := rfl
@[simp] theorem State.stackAt_setV (r : Reg) (b : Byte) (j : Nat) : (s.setV r b).stackAt j = s.stackAt j := rfl
@[simp] theorem State.keyDown_setV (r : Reg) (b : Byte) (k : Fin 16) : (s.setV r b).keyDown k = s.keyDown k := rfl
@[simp] theorem State.readByte_setV (r : Reg) (b : Byte) (p : Nat) : (s.setV r b).readByte p = s.readByte p := rfl
@[simp] theorem State.fetch_setV (r : Reg) (b : Byte) : (s.setV r b).fetch = s.fetch := rfl
@[simp] theorem State.indexAddr_setV (r : Reg) (b : Byte) (k : Nat) : (s.setV r b).indexAddr k = s.indexAddr k := rfl
@[simp] theorem State.newKeys_setV (r : Reg) (b : Byte) (last : KeySet) : (s.setV r b).newKeys last = s.newKeys last := rfl

/-! ### setI -/

@[simp] theorem State.setI_v (w : Word) : (s.setI w).v = s.v := rfl
@[simp] theorem State.setI_i (w : Word) : (s.setI w).i = w := rfl
@[simp] theorem State.setI_pc (w : Word) : (s.setI w).pc = s.pc := rfl
@[simp] theorem State.setI_stack (w : Word) : (s.setI w).stack = s.stack := rfl
@[simp] theorem State.setI_sp (w : Word) : (s.setI w).sp = s.sp := rfl
@[simp] theorem State.setI_dt (w : Word) : (s.setI w).dt = s.dt := rfl
@[simp] theorem State.setI_st (w : Word) : (s.setI w).st = s.st := rfl
@[simp] theorem State.setI_mode (w : Word) : (s.setI w).mode = s.mode := rfl
@[simp] theorem State.setI_disp (w : Word) : (s.setI w).disp = s.disp := rfl
@[simp] theorem State.setI_keys (w : Word) : (s.setI w).keys = s.keys := rfl
@[simp] theorem State.setI_mem (w : Word) : (s.setI w).mem = s.mem := rfl
@[simp] theorem State.setI_params (w : Word) : (s.setI w).params = s.params := rfl
@[simp] theorem State.setI_draws (w : Word) : (s.setI w).draws = s.draws := rfl
@[simp] theorem State.getV_setI (w : Word) (q : Reg) : (s.setI w).getV q = s.getV q := rfl
@[simp] theorem State.stackAt_setI (w : Word) (j : Nat) : (s.setI w).stackAt j = s.stackAt j := rfl
@[simp] theorem State.keyDown_setI (w : Word) (k : Fin 16) : (s.setI w).keyDown k = s.keyDown k := rfl
@[simp] theorem State.readByte_setI (w : Word) (p : Nat) : (s.setI w).readByte p = s.readByte p := rfl
@[simp] theorem State.fetch_setI (w : Word) : (s.setI w).fetch = s.fetch := rfl
@[simp] theorem State.newKeys_setI (w : Word) (last : KeySet) : (s.setI w).newKeys last = s.newKeys last := rfl

/-! ### setPc -/

@[simp] theorem State.setPc_v (w : Word) : (s.setPc w).v = s.v := rfl
@[simp] theorem State.setPc_i (w : Word) : (s.setPc w).i = s.i := rfl
@[simp] theorem State.setPc_pc (w : Word) : (s.setPc w).pc = w := rfl
@[simp] theorem State.setPc_stack (w : Word) : (s.setPc w).stack = s.stack := rfl
@[simp] theorem State.setPc_sp (w : Word) : (s.setPc w).sp = s.sp := rfl
@[simp] theorem State.setPc_dt (w : Word) : (s.setPc w).dt = s.dt := rfl
@[simp] theorem State.setPc_st (w : Word) : (s.setPc w).st = s.st := rfl
@[simp] theorem State.setPc_mode (w : Word) : (s.setPc w).mode = s.mode := rfl
@[simp] theorem State.setPc_disp (w : Word) : (s.setPc w).disp = s.disp := rfl
@[simp] theorem State.setPc_keys (w : Word) : (s.setPc w).keys = s.keys := rfl
@[simp] theorem State.setPc_mem (w : Word) : (s.setPc w).mem = s.mem := rfl
@[simp] theorem State.setPc_params (w : Word) : (s.setPc w).params = s.params := rfl
@[simp] theorem State.setPc_draws (w : Word) : (s.setPc w).draws = s.draws := rfl
@[simp] theorem State.getV_setPc (w : Word) (q : Reg) : (s.setPc w).getV q = s.getV q := rfl
@[simp] theorem State.stackAt_setPc (w : Word) (j : Nat) : (s.setPc w).stackAt j = s.stackAt j := rfl
@[simp] theorem State.keyDown_setPc (w : Word) (k : Fin 16) : (s.setPc w).keyDown k = s.keyDown k := rfl
@[simp] theorem State.readByte_setPc (w : Word) (p : Nat) : (s.setPc w).readByte p = s.readByte p := rfl
@[simp] theorem State.indexAddr_setPc (w : Word) (k : Nat) : (s.setPc w).indexAddr k = s.indexAddr k := rfl
@[simp] theorem State.newKeys_setPc (w : Word) (last : KeySet) : (s.setPc w).newKeys last = s.newKeys last := rfl

/-! ### advance -/

@[simp] theorem State.advance_v : (s.advance).v = s.v := rfl
@[simp] theorem State.advance_i : (s.advance).i = s.i := rfl
@[simp] theorem State.advance_pc : (s.advance).pc = s.pc + 2 := rfl
@[simp] theorem State.advance_stack : (s.advance).stack = s.stack := rfl
@[simp] theorem State.advance_sp : (s.advance).sp = s.sp := rfl
@[simp] theorem State.advance_dt : (s.advance).dt = s.dt := rfl
@[simp] theorem State.advance_st : (s.advance).st = s.st := rfl
@[simp] theorem State.advance_mode : (s.advance).mode = s.mode := rfl
@[simp] theorem State.advance_disp : (s.advance).disp = s.disp := rfl
@[simp] theorem State.advance_keys : (s.advance).keys = s.keys := rfl
@[simp] theorem State.advance_mem : (s.advance).mem = s.mem := rfl
@[simp] theorem State.advance_params : (s.advance).params = s.params := rfl
@[simp] theorem State.advance_draws : (s.advance).draws = s.draws := rfl
@[simp] theorem State.getV_advance (q : Reg) : (s.advance).getV q = s.getV q := rfl
@[simp] theorem State.stackAt_advance (j : Nat) : (s.advance).stackAt j = s.stackAt j := rfl
@[simp] theorem State.keyDown_advance (k : Fin 16) : (s.advance).keyDown k = s.keyDown k := rfl
@[simp] theorem State.readByte_advance (p : Nat) : (s.advance).readByte p = s.readByte p := rfl
@[simp] theorem State.indexAddr_advance (k : Nat) : (s.advance).indexAddr k = s.indexAddr k := rfl
@[simp] theorem State.newKeys_advance (last : KeySet) : (s.advance).newKeys last = s.newKeys last := rfl

/-! ### setDt -/

@[simp] theorem State.setDt_v (b : Byte) : (s.setDt b).v = s.v := rfl
@[simp] theorem State.setDt_i (b : Byte) : (s.setDt b).i = s.i := rfl
@[simp] theorem State.setDt_pc (b : Byte) : (s.setDt b).pc = s.pc := rfl
@[simp] theorem State.setDt_stack (b : Byte) : (s.setDt b).stack = s.stack := rfl
@[simp] theorem State.setDt_sp (b : Byte) : (s.setDt b).sp = s.sp := rfl
@[simp] theorem State.setDt_dt (b : Byte) : (s.setDt b).dt = b := rfl
@[simp] theorem State.setDt_st (b : Byte) : (s.setDt b).st = s.st := rfl
@[simp] theorem State.setDt_mode (b : Byte) : (s.setDt b).mode = s.mode := rfl
@[simp] theorem State.setDt_disp (b : Byte) : (s.setDt b).disp = s.disp := rfl
@[simp] theorem State.setDt_keys (b : Byte) : (s.setDt b).keys = s.keys := rfl
@[simp] theorem State.setDt_mem (b : Byte) : (s.setDt b).mem = s.mem := rfl
@[simp] theorem State.setDt_params (b : Byte) : (s.setDt b).params = s.params := rfl
@[simp] theorem State.setDt_draws (b : Byte) : (s.setDt b).draws = s.draws := rfl
@[simp] theorem State.getV_setDt (b : Byte) (q : Reg) : (s.setDt b).getV q = s.getV q := rfl
@[simp] theorem State.stackAt_setDt (b : Byte) (j : Nat) : (s.setDt b).stackAt j = s.stackAt j := rfl
@[simp] theorem State.keyDown_setDt (b : Byte) (k : Fin 16) : (s.setDt b).keyDown k = s.keyDown k := rfl
@[simp] theorem State.readByte_setDt (b : Byte) (p : Nat) : (s.setDt b).readByte p = s.readByte p := rfl
@[simp] theorem State.fetch_setDt (b : Byte) : (s.setDt b).fetch = s.fetch := rfl
@[simp] theorem State.indexAddr_setDt (b : Byte) (k : Nat) : (s.setDt b).indexAddr k = s.indexAddr k := rfl
@[simp] theorem State.newKeys_setDt (b : Byte) (last : KeySet) : (s.setDt b).newKeys last = s.newKeys last := rfl

/-! ### setSt -/

@[simp] theorem State.setSt_v (b : Byte) : (s.setSt b).v = s.v := rfl
@[simp] theorem State.setSt_i (b : Byte) : (s.setSt b).i = s.i := rfl
@[simp] theorem State.setSt_pc (b : Byte) : (s.setSt b).pc = s.pc := rfl
@[simp] theorem State.setSt_stack (b : Byte) : (s.setSt b).stack = s.stack := rfl
@[simp] theorem State.setSt_sp (b : Byte) : (s.setSt b).sp = s.sp := rfl
@[simp] theorem State.setSt_dt (b : Byte) : (s.setSt b).dt = s.dt := rfl
@[simp] theorem State.setSt_st (b : Byte) : (s.setSt b).st = b := rfl
@[simp] theorem State.setSt_mode (b : Byte) : (s.setSt b).mode = s.mode := rfl
@[simp] theorem State.setSt_disp (b : Byte) : (s.setSt b).disp = s.disp := rfl
@[simp] theorem State.setSt_keys (b : Byte) : (s.setSt b).keys = s.keys := rfl
@[simp] theorem State.setSt_mem (b : Byte) : (s.setSt b).mem = s.mem := rfl
@[simp] theorem State.setSt_params (b : Byte) : (s.setSt b).params = s.params := rfl
@[simp] theorem State.setSt_draws (b : Byte) : (s.setSt b).draws = s.draws := rfl
@[simp] theorem State.getV_setSt (b : Byte) (q : Reg) : (s.setSt b).getV q = s.getV q := rfl
@[simp] theorem State.stackAt_setSt (b : Byte) (j : Nat) : (s.setSt b).stackAt j = s.stackAt j := rfl
@[simp] theorem State.keyDown_setSt (b : Byte) (k : Fin 16) : (s.setSt b).keyDown k = s.keyDown k := rfl
@[simp] theorem State.readByte_setSt (b : Byte) (p : Nat) : (s.setSt b).readByte p = s.readByte p := rfl
@[simp] theorem State.fetch_setSt (b : Byte) : (s.setSt b).fetch = s.fetch := rfl
@[simp] theorem State.indexAddr_setSt (b : Byte) (k : Nat) : (s.setSt b).indexAddr k = s.indexAddr k := rfl
@[simp] theorem State.newKeys_setSt (b : Byte) (last : KeySet) : (s.setSt b).newKeys last = s.newKeys last := rfl

/-! ### setMode -/

@[simp] theorem State.setMode_v (m : Mode) : (s.setMode m).v = s.v := rfl
@[simp] theorem State.setMode_i (m : Mode) : (s.setMode m).i = s.i := rfl
@[simp] theorem State.setMode_pc (m : Mode) : (s.setMode m).pc = s.pc := rfl
@[simp] theorem State.setMode_stack (m : Mode) : (s.setMode m).stack = s.stack := rfl
@[simp] theorem State.setMode_sp (m : Mode) : (s.setMode m).sp = s.sp := rfl
@[simp] theorem State.setMode_dt (m : Mode) : (s.setMode m).dt = s.dt := rfl
@[simp] theorem State.setMode_st (m : Mode) : (s.setMode m).st = s.st := rfl
@[simp] theorem State.setMode_mode (m : Mode) : (s.setMode m).mode = m := rfl
@[simp] theorem State.setMode_disp (m : Mode) : (s.setMode m).disp = s.disp := rfl
@[simp] theorem State.setMode_keys (m : Mode) : (s.setMode m).keys = s.keys := rfl
@[simp] theorem State.setMode_mem (m : Mode) : (s.setMode m).mem = s.mem := rfl
@[simp] theorem State.setMode_params (m : Mode) : (s.setMode m).params = s.params := rfl
@[simp] theorem State.setMode_draws (m : Mode) : (s.setMode m).draws = s.draws := rfl
@[simp] theorem State.getV_setMode (m : Mode) (q : Reg) : (s.setMode m).getV q = s.getV q := rfl
@[simp] theorem State.stackAt_setMode (m : Mode) (j : Nat) : (s.setMode m).stackAt j = s.stackAt j := rfl
@[simp] theorem State.keyDown_setMode (m : Mode) (k : Fin 16) : (s.setMode m).keyDown k = s.keyDown k := rfl
@[simp] theorem State.readByte_setMode (m : Mode) (p : Nat) : (s.setMode m).readByte p = s.readByte p := rfl
@[simp] theorem State.fetch_setMode (m : Mode) : (s.setMode m).fetch = s.fetch := rfl
@[simp] theorem State.indexAddr_setMode (m : Mode) (k : Nat) : (s.setMode m).indexAddr k = s.indexAddr k := rfl
@[simp] theorem State.newKeys_setMode (m : Mode) (last : KeySet) : (s.setMode m).newKeys last = s.newKeys last := rfl

/-! ### setDisp -/

@[simp] theorem State.setDisp_v (d : Display) : (s.setDisp d).v = s.v := rfl
@[simp] theorem State.setDisp_i (d : Display) : (s.setDisp d).i = s.i := rfl
@[simp] theorem State.setDisp_pc (d : Display) : (s.setDisp d).pc = s.pc := rfl
@[simp] theorem State.setDisp_stack (d : Display) : (s.setDisp d).stack = s.stack := rfl
@[simp] theorem State.setDisp_sp (d : Display) : (s.setDisp d).sp = s.sp := rfl
@[simp] theorem State.setDisp_dt (d : Display) : (s.setDisp d).dt = s.dt := rfl
@[simp] theorem State.setDisp_st (d : Display) : (s.setDisp d).st = s.st := rfl
@[simp] theorem State.setDisp_mode (d : Display) : (s.setDisp d).mode = s.mode := rfl
@[simp] theorem State.setDisp_disp (d : Display) : (s.setDisp d).disp = d := rfl
@[simp] theorem State.setDisp_keys (d : Display) : (s.setDisp d).keys = s.keys := rfl
@[simp] theorem State.setDisp_mem (d : Display) : (s.setDisp d).mem = s.mem := rfl
@[simp] theorem State.setDisp_params (d : Display) : (s.setDisp d).params = s.params := rfl
@[simp] theorem State.setDisp_draws (d : Display) : (s.setDisp d).draws = s.draws := rfl
@[simp] theorem State.getV_setDisp (d : Display) (q : Reg) : (s.setDisp d).getV q = s.getV q := rfl
@[simp] theorem State.stackAt_setDisp (d : Display) (j : Nat) : (s.setDisp d).stackAt j = s.stackAt j := rfl
@[simp] theorem State.keyDown_setDisp (d : Display) (k : Fin 16) : (s.setDisp d).keyDown k = s.keyDown k := rfl
@[simp] theorem State.readByte_setDisp (d : Display) (p : Nat) : (s.setDisp d).readByte p = s.readByte p := rfl
@[simp] theorem State.fetch_setDisp (d : Display) : (s.setDisp d).fetch = s.fetch := rfl
@[simp] theorem State.indexAddr_setDisp (d : Display) (k : Nat) : (s.setDisp d).indexAddr k = s.indexAddr k := rfl
@[simp] theorem State.newKeys_setDisp (d : Display) (last : KeySet) : (s.setDisp d).newKeys last = s.newKeys last := rfl

/-! ### countDraw -/

@[simp] theorem State.countDraw_v : (s.countDraw).v = s.v := rfl
@[simp] theorem State.countDraw_i : (s.countDraw).i = s.i := rfl
@[simp] theorem State.countDraw_pc : (s.countDraw).pc = s.pc := rfl
@[simp] theorem State.countDraw_stack : (s.countDraw).stack = s.stack := rfl
@[simp] theorem State.countDraw_sp : (s.countDraw).sp = s.sp := rfl
@[simp] theorem State.countDraw_dt : (s.countDraw).dt = s.dt := rfl
@[simp] theorem State.countDraw_st : (s.countDraw).st = s.st := rfl
@[simp] theorem State.countDraw_mode : (s.countDraw).mode = s.mode := rfl
@[simp] theorem State.countDraw_disp : (s.countDraw).disp = s.disp := rfl
@[simp] theorem State.countDraw_keys : (s.countDraw).keys = s.keys := rfl
@[simp] theorem State.countDraw_mem : (s.countDraw).mem = s.mem := rfl
@[simp] theorem State.countDraw_params : (s.countDraw).params = s.params := rfl
@[simp] theorem State.countDraw_draws : (s.countDraw).draws = s.draws + 1 := rfl
@[simp] theorem State.getV_countDraw (q : Reg) : (s.countDraw).getV q = s.getV q := rfl
@[simp] theorem State.stackAt_countDraw (j : Nat) : (s.countDraw).stackAt j = s.stackAt j := rfl
@[simp] theorem State.keyDown_countDraw (k : Fin 16) : (s.countDraw).keyDown k = s.keyDown k := rfl
@[simp] theorem State.readByte_countDraw (p : Nat) : (s.countDraw).readByte p = s.readByte p := rfl
@[simp] theorem State.fetch_countDraw : (s.countDraw).fetch = s.fetch := rfl
@[simp] theorem State.indexAddr_countDraw (k : Nat) : (s.countDraw).indexAddr k = s.indexAddr k := rfl
@[simp] theorem State.newKeys_countDraw (last : KeySet) : (s.countDraw).newKeys last = s.newKeys last := rfl

/-! ### push -/

@[simp] theorem State.push_v (w : Word) : (s.push w).v = s.v := rfl
@[simp] theorem State.push_i (w : Word) : (s.push w).i = s.i := rfl
@[simp] theorem State.push_pc (w : Word) : (s.push w).pc = s.pc := rfl
@[simp] theorem State.push_stack (w : Word) : (s.push w).stack = s.stack.setIfInBounds s.sp.val w := rfl
@[simp] theorem State.push_sp (w : Word) : (s.push w).sp = Fin.ofNat 17 (s.sp.val + 1) := rfl
@[simp] theorem State.push_dt (w : Word) : (s.push w).dt = s.dt := rfl
@[simp] theorem State.push_st (w : Word) : (s.push w).st = s.st := rfl
@[simp] theorem State.push_mode (w : Word) : (s.push w).mode = s.mode := rfl
@[simp] theorem State.push_disp (w : Word) : (s.push w).disp = s.disp := rfl
@[simp] theorem State.push_keys (w : Word) : (s.push w).keys = s.keys := rfl
@[simp] theorem State.push_mem (w : Word) : (s.push w).mem = s.mem := rfl
@[simp] theorem State.push_params (w : Word) : (s.push w).params = s.params := rfl
@[simp] theorem State.push_draws (w : Word) : (s.push w).draws = s.draws := rfl
@[simp] theorem State.getV_push (w : Word) (q : Reg) : (s.push w).getV q = s.getV q := rfl
@[simp] theorem State.keyDown_push (w : Word) (k : Fin 16) : (s.push w).keyDown k = s.keyDown k := rfl
@[simp] theorem State.readByte_push (w : Word) (p : Nat) : (s.push w).readByte p = s.readByte p := rfl
@[simp] theorem State.fetch_push (w : Word) : (s.push w).fetch = s.fetch := rfl
@[simp] theorem State.indexAddr_push (w : Word) (k : Nat) : (s.push w).indexAddr k = s.indexAddr k := rfl
@[simp] theorem State.newKeys_push (w : Word) (last : KeySet) : (s.push w).newKeys last = s.newKeys last := rfl

/-! ### dropTop -/

@[simp] theorem State.dropTop_v : (s.dropTop).v = s.v := rfl
@[simp] theorem State.dropTop_i : (s.dropTop).i = s.i := rfl
@[simp] theorem State.dropTop_pc : (s.dropTop).pc = s.pc := rfl
@[simp] theorem State.dropTop_stack : (s.dropTop).stack = s.stack := rfl
@[simp] theorem State.dropTop_sp : (s.dropTop).sp = Fin.ofNat 17 (s.sp.val - 1) := rfl
@[simp] theorem State.dropTop_dt : (s.dropTop).dt = s.dt := rfl
@[simp] theorem State.dropTop_st : (s.dropTop).st = s.st := rfl
@[simp] theorem State.dropTop_mode : (s.dropTop).mode = s.mode := rfl
@[simp] theorem State.dropTop_disp : (s.dropTop).disp = s.disp := rfl
@[simp] theorem State.dropTop_keys : (s.dropTop).keys = s.keys := rfl
@[simp] theorem State.dropTop_mem : (s.dropTop).mem = s.mem := rfl
@[simp] theorem State.dropTop_params : (s.dropTop).params = s.params := rfl
@[simp] theorem State.dropTop_draws : (s.dropTop).draws = s.draws := rfl
@[simp] theorem State.getV_dropTop (q : Reg) : (s.dropTop).getV q = s.getV q := rfl
@[simp] theorem State.stackAt_dropTop (j : Nat) : (s.dropTop).stackAt j = s.stackAt j := rfl
@[simp] theorem State.keyDown_dropTop (k : Fin 16) : (s.dropTop).keyDown k = s.keyDown k := rfl
@[simp] theorem State.readByte_dropTop (p : Nat) : (s.dropTop).readByte p = s.readByte p := rfl
@[simp] theorem State.fetch_dropTop : (s.dropTop).fetch = s.fetch := rfl
@[simp] theorem State.indexAddr_dropTop (k : Nat) : (s.dropTop).indexAddr k = s.indexAddr k := rfl
@[simp] theorem State.newKeys_dropTop (last : KeySet) : (s.dropTop).newKeys last = s.newKeys last := rfl

/-! ### writeByte -/

@[simp] theorem State.writeByte_v (a : Nat) (b : Byte) : (s.writeByte a b).v = s.v := rfl
@[simp] theorem State.writeByte_i (a : Nat) (b : Byte) : (s.writeByte a b).i = s.i := rfl
@[simp] theorem State.writeByte_pc (a : Nat) (b : Byte) : (s.writeByte a b).pc = s.pc := rfl
@[simp] theorem State.writeByte_stack (a : Nat) (b : Byte) : (s.writeByte a b).stack = s.stack := rfl
@[simp] theorem State.writeByte_sp (a : Nat) (b : Byte) : (s.writeByte a b).sp = s.sp := rfl
@[simp] theorem State.writeByte_dt (a : Nat) (b : Byte) : (s.writeByte a b).dt = s.dt := rfl
@[simp] theorem State.writeByte_st (a : Nat) (b : Byte) : (s.writeByte a b).st = s.st := rfl
@[simp] theorem State.writeByte_mode (a : Nat) (b : Byte) : (s.writeByte a b).mode = s.mode := rfl
@[simp] theorem State.writeByte_disp (a : Nat) (b : Byte) : (s.writeByte a b).disp = s.disp := rfl
@[simp] theorem State.writeByte_keys (a : Nat) (b : Byte) : (s.writeByte a b).keys = s.keys := rfl
@[simp] theorem State.writeByte_mem (a : Nat) (b : Byte) : (s.writeByte a b).mem = Memory.write s.params.fontBase.val s.mem (maskAddr a) b := rfl
@[simp] theorem State.writeByte_params (a : Nat) (b : Byte) : (s.writeByte a b).params = s.params := rfl
@[simp] theorem State.writeByte_draws (a : Nat) (b : Byte) : (s.writeByte a b).draws = s.draws := rfl
@[simp] theorem State.getV_writeByte (a : Nat) (b : Byte) (q : Reg) : (s.writeByte a b).getV q = s.getV q := rfl
@[simp] theorem State.stackAt_writeByte (a : Nat) (b : Byte) (j : Nat) : (s.writeByte a b).stackAt j = s.stackAt j := rfl
@[simp] theorem State.keyDown_writeByte (a : Nat) (b : Byte) (k : Fin 16) : (s.writeByte a b).keyDown k = s.keyDown k := rfl
@[simp] theorem State.indexAddr_writeByte (a : Nat) (b : Byte) (k : Nat) : (s.writeByte a b).indexAddr k = s.indexAddr k := rfl
@[simp] theorem State.newKeys_writeByte (a : Nat) (b : Byte) (last : KeySet) : (s.writeByte a b).newKeys last = s.newKeys last := rfl

/-! ### setResultFlag -/

@[simp] theorem State.setResultFlag_i (x : Reg) (a b : Byte) : (s.setResultFlag x a b).i = s.i := rfl
@[simp] theorem State.setResultFlag_pc (x : Reg) (a b : Byte) : (s.setResultFlag x a b).pc = s.pc := rfl
@[simp] theorem State.setResultFlag_stack (x : Reg) (a b : Byte) : (s.setResultFlag x a b).stack = s.stack := rfl
@[simp] theorem State.setResultFlag_sp (x : Reg) (a b : Byte) : (s.setResultFlag x a b).sp = s.sp := rfl
@[simp] theorem State.setResultFlag_dt (x : Reg) (a b : Byte) : (s.setResultFlag x a b).dt = s.dt := rfl
@[simp] theorem State.setResultFlag_st (x : Reg) (a b : Byte) : (s.setResultFlag x a b).st = s.st := rfl
@[simp] theorem State.setResultFlag_mode (x : Reg) (a b : Byte) : (s.setResultFlag x a b).mode = s.mode := rfl
@[simp] theorem State.setResultFlag_disp (x : Reg) (a b : Byte) : (s.setResultFlag x a b).disp = s.disp := rfl
@[simp] theorem State.setResultFlag_keys (x : Reg) (a b : Byte) : (s.setResultFlag x a b).keys = s.keys := rfl
@[simp] theorem State.setResultFlag_mem (x : Reg) (a b : Byte) : (s.setResultFlag x a b).mem = s.mem := rfl
@[simp] theorem State.setResultFlag_params (x : Reg) (a b : Byte) : (s.setResultFlag x a b).params = s.params := rfl
@[simp] theorem State.setResultFlag_draws (x : Reg) (a b : Byte) : (s.setResultFlag x a b).draws = s.draws := rfl
@[simp] theorem State.stackAt_setResultFlag (x : Reg) (a b : Byte) (j : Nat) : (s.setResultFlag x a b).stackAt j = s.stackAt j := rfl
@[simp] theorem State.keyDown_setResultFlag (x : Reg) (a b : Byte) (k : Fin 16) : (s.setResultFlag x a b).keyDown k = s.keyDown k := rfl
@[simp] theorem State.readByte_setResultFlag (x : Reg) (a b : Byte) (p : Nat) : (s.setResultFlag x a b).readByte p = s.readByte p := rfl
@[simp] theorem State.fetch_setResultFlag (x : Reg) (a b : Byte) : (s.setResultFlag x a b).fetch = s.fetch := rfl
@[simp] theorem State.indexAddr_setResultFlag (x : Reg) (a b : Byte) (k : Nat) : (s.setResultFlag x a b).indexAddr k = s.indexAddr k := rfl
@[simp] theorem State.newKeys_setResultFlag (x : Reg) (a b : Byte) (last : KeySet) : (s.setResultFlag x a b).newKeys last = s.newKeys last := rfl

/-! ### setKeys -/

@[simp] theorem setKeys_v (k : KeySet) : (setKeys k s).v = s.v := rfl
@[simp] theorem setKeys_i (k : KeySet) : (setKeys k s).i = s.i := rfl
@[simp] theorem setKeys_pc (k : KeySet) : (setKeys k s).pc = s.pc := rfl
@[simp] theorem setKeys_stack (k : KeySet) : (setKeys k s).stack = s.stack := rfl
@[simp] theorem setKeys_sp (k : KeySet) : (setKeys k s).sp = s.sp := rfl
@[simp] theorem setKeys_dt (k : KeySet) : (setKeys k s).dt = s.dt := rfl
@[simp] theorem setKeys_st (k : KeySet) : (setKeys k s).st = s.st := rfl
@[simp] theorem setKeys_mode (k : KeySet) : (setKeys k s).mode = s.mode := rfl
@[simp] theorem setKeys_disp (k : KeySet) : (setKeys k s).disp = s.disp := rfl
@[simp] theorem setKeys_keys (k : KeySet) : (setKeys k s).keys = k := rfl
@[simp] theorem setKeys_mem (k : KeySet) : (setKeys k s).mem = s.mem := rfl
@[simp] theorem setKeys_params (k : KeySet) : (setKeys k s).params = s.params := rfl
@[simp] theorem setKeys_draws (k : KeySet) : (setKeys k s).draws = s.draws := rfl
@[simp] theorem getV_setKeys (k : KeySet) (q : Reg) : (setKeys k s).getV q = s.getV q := rfl
@[simp] theorem stackAt_setKeys (k : KeySet) (j : Nat) : (setKeys k s).stackAt j = s.stackAt j := rfl
@[simp] theorem readByte_setKeys (k : KeySet) (p : Nat) : (setKeys k s).readByte p = s.readByte p := rfl
@[simp] theorem fetch_setKeys (k : KeySet) : (setKeys k s).fetch = s.fetch := rfl
@[simp] theorem indexAddr_setKeys (ks : KeySet) (k : Nat) : (setKeys ks s).indexAddr k = s.indexAddr k := rfl

/-! ### Two-way updates -/

theorem State.skipIf_eq (c : Bool) : s.skipIf c = s.setPc (if c then s.pc + 4 else s.pc + 2) := by
  cases c <;> rfl

theorem State.logicVf_eq :
    s.logicVf = if s.params.logicVfReset then s.setV VF 0 else s := rfl

theorem State.transferI_eq (x : Reg) :
    s.transferI x =
      s.setI (if s.params.loadStoreIncrement then s.i + BitVec.ofNat 16 (x.val + 1) else s.i) := by
  unfold State.transferI
  split <;> rfl

end Sys2Proof.Machine
end

