-- ==== Sys2Proof/Laws/Memory.lean ====
section
/-!
SUPPORT. Memory: a read after a write, the canonical form that every write keeps, equal memories are
equal lists, and the bytes a load places.
-/

namespace Sys2Proof.Machine

open Sys2Proof

theorem Memory.read_of_wfFrom_lt {base lo a : Nat} {m : Memory} (h : Memory.wfFrom base lo m = true)
    (ha : a < lo) : Memory.read base m a = unlistedByte base a := by
  induction m generalizing lo with
  | nil => rfl
  | cons e m ih =>
    obtain ⟨b, w⟩ := e
    simp only [Memory.wfFrom, Bool.and_eq_true, decide_eq_true_eq] at h
    have hb : a ≠ b := by omega
    simp only [Memory.read, if_neg hb]
    exact ih h.2 (by omega)

theorem Memory.wfFrom_mono {base lo lo' : Nat} {m : Memory} (h : Memory.wfFrom base lo m = true)
    (hl : lo' ≤ lo) : Memory.wfFrom base lo' m = true := by
  cases m with
  | nil => rfl
  | cons e m =>
    obtain ⟨b, w⟩ := e
    simp only [Memory.wfFrom, Bool.and_eq_true, decide_eq_true_eq] at h ⊢
    exact ⟨⟨⟨by omega, h.1.1.2⟩, h.1.2⟩, h.2⟩

/-- Every write keeps the canonical form. -/
theorem Memory.wfFrom_write {base lo a : Nat} {m : Memory} {v : Byte}
    (h : Memory.wfFrom base lo m = true) (hl : lo ≤ a) (ha : a < memSize) :
    Memory.wfFrom base lo (Memory.write base m a v) = true := by
  induction m generalizing lo with
  | nil =>
    simp only [Memory.write]
    split
    · rfl
    · simp_all [Memory.wfFrom]
  | cons e m ih =>
    obtain ⟨b, w⟩ := e
    simp only [Memory.wfFrom, Bool.and_eq_true, decide_eq_true_eq] at h
    obtain ⟨⟨⟨h1, h2⟩, h3⟩, h4⟩ := h
    simp only [Memory.write]
    split
    · split
      · simp [Memory.wfFrom, h1, h2, h3, h4]
      · rename_i hab hv
        simp [Memory.wfFrom, hl, ha, hv, h2, h3, h4, Nat.succ_le_of_lt hab]
    · split
      · rename_i hab
        split
        · exact Memory.wfFrom_mono h4 (by omega)
        · rename_i hv
          subst hab
          simp [Memory.wfFrom, hl, ha, hv, h4]
      · rename_i h5 h6
        simp [Memory.wfFrom, h1, h2, h3, ih h4 (by omega)]

/-- A read after a write: the written byte at its address, the old byte everywhere else. -/
theorem Memory.read_write {base lo a c : Nat} {m : Memory} {v : Byte}
    (h : Memory.wfFrom base lo m = true) :
    Memory.read base (Memory.write base m a v) c = if c = a then v else Memory.read base m c := by
  induction m generalizing lo with
  | nil =>
    simp only [Memory.write]
    split <;> simp_all [Memory.read]
  | cons e m ih =>
    obtain ⟨b, w⟩ := e
    simp only [Memory.wfFrom, Bool.and_eq_true, decide_eq_true_eq] at h
    obtain ⟨⟨⟨h1, h2⟩, h3⟩, h4⟩ := h
    simp only [Memory.write]
    split
    · split
      · rename_i hab hv
        by_cases hc : c = a
        · subst hc
          have hcb : c ≠ b := by omega
          simp only [if_true, Memory.read, if_neg hcb]
          rw [Memory.read_of_wfFrom_lt h4 (by omega), hv]
        · simp [hc]
      · simp [Memory.read]
    · split
      · rename_i hab
        subst hab
        split
        · rename_i hv
          by_cases hc : c = a
          · subst hc
            simp only [if_true]
            rw [Memory.read_of_wfFrom_lt h4 (by omega), hv]
          · simp [Memory.read, hc]
        · by_cases hc : c = a <;> simp [Memory.read, hc]
      · rename_i h5 h6
        by_cases hc : c = b
        · subst hc
          simp [Memory.read, Ne.symm h6]
        · simp [Memory.read, hc, ih h4]

/-- Canonical memories that read alike are equal, entry by entry. -/
theorem Memory.ext_of_read_from {base lo : Nat} {m m' : Memory} (h : Memory.wfFrom base lo m = true)
    (h' : Memory.wfFrom base lo m' = true)
    (hr : ∀ a, lo ≤ a → a < memSize → Memory.read base m a = Memory.read base m' a) : m = m' := by
  induction m generalizing lo m' with
  | nil =>
    cases m' with
    | nil => rfl
    | cons e m' =>
      obtain ⟨b, w⟩ := e
      simp only [Memory.wfFrom, Bool.and_eq_true, decide_eq_true_eq, bne_iff_ne] at h'
      have := hr b h'.1.1.1 h'.1.1.2
      simp [Memory.read] at this
      exact absurd this.symm h'.1.2
  | cons e m ih =>
    obtain ⟨b, w⟩ := e
    simp only [Memory.wfFrom, Bool.and_eq_true, decide_eq_true_eq, bne_iff_ne] at h
    obtain ⟨⟨⟨h1, h2⟩, h3⟩, h4⟩ := h
    cases m' with
    | nil =>
      have := hr b h1 h2
      simp [Memory.read] at this
      exact absurd this h3
    | cons e' m' =>
      obtain ⟨b', w'⟩ := e'
      simp only [Memory.wfFrom, Bool.and_eq_true, decide_eq_true_eq, bne_iff_ne] at h'
      obtain ⟨⟨⟨h1', h2'⟩, h3'⟩, h4'⟩ := h'
      have hbb : b = b' := by
        rcases Nat.lt_trichotomy b b' with hlt | heq | hgt
        · have := hr b h1 h2
          rw [Memory.read, if_pos rfl, Memory.read, if_neg (by omega),
            Memory.read_of_wfFrom_lt h4' (by omega)] at this
          exact absurd this h3
        · exact heq
        · have := hr b' h1' h2'
          rw [Memory.read, if_neg (by omega), Memory.read_of_wfFrom_lt h4 (by omega), Memory.read,
            if_pos rfl] at this
          exact absurd this.symm h3'
      subst hbb
      have hw : w = w' := by simpa [Memory.read] using hr b h1 h2
      subst hw
      have : m = m' := ih h4 h4' fun a ha1 ha2 => by
        have := hr a (by omega) ha2
        have hab : a ≠ b := by omega
        simpa [Memory.read, hab] using this
      rw [this]

theorem maskAddr_lt (a : Nat) : maskAddr a < memSize := Nat.mod_lt _ (by decide)

/-- Writing a byte of memory keeps the canonical form. -/
theorem State.memWf_writeByte {s : State} (h : s.memWf) (a : Nat) (b : Byte) :
    (s.writeByte a b).memWf :=
  Memory.wfFrom_write h (Nat.zero_le _) (maskAddr_lt a)

/-- Reading a byte after writing one (20_memory R35, R36). -/
theorem State.readByte_writeByte {s : State} (h : s.memWf) (a c : Nat) (b : Byte) :
    (s.writeByte a b).readByte c = if maskAddr c = maskAddr a then b else s.readByte c :=
  Memory.read_write h

/-- An empty list is canonical: reset memory has the form. -/
theorem Memory.wf_nil (base : Nat) : Memory.wf base [] = true := rfl

/-- The bytes a load places keep the canonical form. -/
theorem placeBytes_wf {base a : Nat} {m : Memory} {bs : List Byte} (h : Memory.wf base m = true)
    (ha : a + bs.length ≤ memSize) : Memory.wf base (placeBytes base a bs m) = true := by
  induction bs generalizing a m with
  | nil => exact h
  | cons b bs ih =>
    simp only [List.length_cons] at ha
    exact ih (Memory.wfFrom_write h (Nat.zero_le _) (by omega)) (by omega)

/-- The bytes a load places are read back at their addresses; every other byte is as before. -/
theorem read_placeBytes {base a c : Nat} {m : Memory} {bs : List Byte} (h : Memory.wf base m = true)
    (ha : a + bs.length ≤ memSize) :
    Memory.read base (placeBytes base a bs m) c =
      if a ≤ c ∧ c < a + bs.length then bs.getD (c - a) 0 else Memory.read base m c := by
  induction bs generalizing a m with
  | nil => simp [placeBytes]
  | cons b bs ih =>
    simp only [List.length_cons] at ha ⊢
    have hw : Memory.wf base (Memory.write base m a b) = true :=
      Memory.wfFrom_write h (Nat.zero_le _) (by omega)
    rw [placeBytes, ih hw (by omega), Memory.read_write h]
    by_cases hc : c = a
    · subst hc
      rw [if_neg (by omega), if_pos rfl, if_pos (by omega)]
      simp
    · by_cases hin : a ≤ c ∧ c < a + (bs.length + 1)
      · rw [if_pos (by omega), if_pos hin]
        have : c - a = (c - (a + 1)) + 1 := by omega
        rw [this, List.getD_cons_succ]
      · rw [if_neg (by omega), if_neg hc, if_neg hin]

end Sys2Proof.Machine
end

