-- ==== Sys2Proof/Laws/Ops.lean ====
section
/-!
SUPPORT. What each shared operation does, said once: registers, stack, flags, multi-byte transfers,
the sprite blit and the key wait.
-/

namespace Sys2Proof.Machine

open Sys2Proof

/-! ### Registers and flags -/

theorem State.getV_setV (s : State) (r q : Reg) (b : Byte) :
    (s.setV r b).getV q = if q = r then b else s.getV q := by
  by_cases h : q = r
  · subst h
    simp [State.getV]
  · have hv : r.val ≠ q.val := fun e => h (Fin.ext e.symm)
    simp [State.getV, h, hv]

@[simp] theorem State.getV_setV_self (s : State) (r : Reg) (b : Byte) :
    (s.setV r b).getV r = b := by
  simp [State.getV_setV]

theorem State.getV_setResultFlag (s : State) (x q : Reg) (a f : Byte) :
    (s.setResultFlag x a f).getV q = if q = VF then f else if q = x then a else s.getV q := by
  simp [State.setResultFlag, State.getV_setV]

theorem flagByte_eq_one (b : Bool) : flagByte b = 1 ↔ b = true := by cases b <;> decide

theorem flagByte_eq_zero (b : Bool) : flagByte b = 0 ↔ b = false := by cases b <;> decide

/-! ### Stack -/

theorem State.stackAt_push (s : State) (w : Word) (j : Nat) (h : s.sp ≠ 16) :
    (s.push w).stackAt j = if j = s.sp.val then w else s.stackAt j := by
  have hs : s.sp.val < 16 := by
    have := s.sp.isLt
    have : s.sp.val ≠ 16 := fun e => h (Fin.ext e)
    omega
  by_cases hj : j = s.sp.val
  · subst hj
    simp [State.stackAt, hs]
  · simp [State.stackAt, hj, Ne.symm hj]

theorem State.push_sp_val (s : State) (w : Word) (h : s.sp ≠ 16) :
    (s.push w).sp.val = s.sp.val + 1 := by
  have := s.sp.isLt
  have : s.sp.val ≠ 16 := fun e => h (Fin.ext e)
  simp [Fin.ofNat]
  omega

theorem State.dropTop_sp_val (s : State) : s.dropTop.sp.val = s.sp.val - 1 := by
  have := s.sp.isLt
  simp [Fin.ofNat]
  omega

/-! ### Display -/

theorem Display.pixel_toggle (d : Display) (c p : Fin 64) (r q : Fin 32) :
    Display.pixel (Display.toggle d c r) p q =
      (Display.pixel d p q ^^ decide (p = c ∧ q = r)) := by
  simp only [Display.pixel, Display.toggle]
  by_cases hr : q = r
  · subst hr
    by_cases hc : p = c
    · subst hc
      simp
    · have : c.val ≠ p.val := fun e => hc (Fin.ext e.symm)
      simp [hc, this]
  · have : r.val ≠ q.val := fun e => hr (Fin.ext e.symm)
    simp [hr, this]

theorem Display.ext {d e : Display}
    (h : ∀ c r, Display.pixel d c r = Display.pixel e c r) : d = e := by
  apply Vector.ext
  intro r hr
  apply Vector.ext
  intro c hc
  exact h ⟨c, hc⟩ ⟨r, hr⟩

@[simp] theorem pixel_clearedDisplay (c : Fin 64) (r : Fin 32) :
    Display.pixel clearedDisplay c r = false := by
  simp [Display.pixel, clearedDisplay]

/-- One sprite row: each set bit `c < n` toggles its pixel, and no pixel is toggled twice. -/
theorem pixel_blitRow (b : Byte) (cx py n : Nat) (hn : n ≤ 64) (z : Blit) (p : Fin 64) (q : Fin 32) :
    Display.pixel (blitRow b cx py n z).disp p q =
      (Display.pixel z.disp p q ^^
        decide (∃ c < n, b.getLsbD (7 - c) = true ∧ p = Fin.ofNat 64 (cx + c) ∧ q = Fin.ofNat 32 py)) := by
  induction n with
  | zero => simp [blitRow]
  | succ n ih =>
    have ih := ih (by omega)
    by_cases hb : b.getLsbD (7 - n) = true
    · simp only [blitRow, hb, if_true, plot, Display.pixel_toggle, ih]
      by_cases hpq : p = Fin.ofNat 64 (cx + n) ∧ q = Fin.ofNat 32 py
      · have h1 : ¬ ∃ c < n, b.getLsbD (7 - c) = true ∧ p = Fin.ofNat 64 (cx + c) ∧ q = Fin.ofNat 32 py := by
          rintro ⟨c, hc, -, hp, -⟩
          have := congrArg Fin.val (hp.symm.trans hpq.1)
          simp [Fin.ofNat] at this
          omega
        have h2 : ∃ c < n + 1, b.getLsbD (7 - c) = true ∧ p = Fin.ofNat 64 (cx + c) ∧ q = Fin.ofNat 32 py :=
          ⟨n, by omega, hb, hpq⟩
        rw [decide_eq_false h1, decide_eq_true h2, decide_eq_true hpq, Bool.xor_false]
      · have h3 : (∃ c < n + 1, b.getLsbD (7 - c) = true ∧ p = Fin.ofNat 64 (cx + c) ∧ q = Fin.ofNat 32 py) ↔
            ∃ c < n, b.getLsbD (7 - c) = true ∧ p = Fin.ofNat 64 (cx + c) ∧ q = Fin.ofNat 32 py := by
          constructor
          · rintro ⟨c, hc, h⟩
            have : c ≠ n := by rintro rfl; exact hpq h.2
            exact ⟨c, by omega, h⟩
          · rintro ⟨c, hc, h⟩
            exact ⟨c, by omega, h⟩
        simp only [h3, hpq, decide_false, Bool.xor_false]
    · have h3 : (∃ c < n + 1, b.getLsbD (7 - c) = true ∧ p = Fin.ofNat 64 (cx + c) ∧ q = Fin.ofNat 32 py) ↔
          ∃ c < n, b.getLsbD (7 - c) = true ∧ p = Fin.ofNat 64 (cx + c) ∧ q = Fin.ofNat 32 py := by
        constructor
        · rintro ⟨c, hc, h⟩
          have : c ≠ n := by rintro rfl; exact hb h.1
          exact ⟨c, by omega, h⟩
        · rintro ⟨c, hc, h⟩
          exact ⟨c, by omega, h⟩
      simp only [blitRow, hb, if_false, Bool.false_eq_true, ih, h3]

/-- One sprite row: `hit` is set when some set bit lands on a pixel that was set before the row. -/
theorem hit_blitRow (b : Byte) (cx py n : Nat) (hn : n ≤ 64) (z : Blit) :
    (blitRow b cx py n z).hit = true ↔ z.hit = true ∨
      ∃ c < n, b.getLsbD (7 - c) = true ∧
        Display.pixel z.disp (Fin.ofNat 64 (cx + c)) (Fin.ofNat 32 py) = true := by
  induction n with
  | zero => simp [blitRow]
  | succ n ih =>
    have ih := ih (by omega)
    have hsplit : ∀ P : Nat → Prop, (∃ c < n + 1, P c) ↔ (∃ c < n, P c) ∨ P n := by
      intro P
      constructor
      · rintro ⟨c, hc, h⟩
        rcases Nat.lt_succ_iff_lt_or_eq.mp hc with h' | rfl
        · exact .inl ⟨c, h', h⟩
        · exact .inr h
      · rintro (⟨c, hc, h⟩ | h)
        · exact ⟨c, by omega, h⟩
        · exact ⟨n, by omega, h⟩
    rw [hsplit, ← or_assoc, ← ih]
    by_cases hb : b.getLsbD (7 - n) = true
    · have hfresh : ¬ ∃ c < n, b.getLsbD (7 - c) = true ∧
          (Fin.ofNat 64 (cx + n)) = Fin.ofNat 64 (cx + c) ∧ Fin.ofNat 32 py = Fin.ofNat 32 py := by
        rintro ⟨c, hc, -, hp, -⟩
        have := congrArg Fin.val hp
        simp [Fin.ofNat] at this
        omega
      have hpx : Display.pixel (blitRow b cx py n z).disp (Fin.ofNat 64 (cx + n)) (Fin.ofNat 32 py) =
          Display.pixel z.disp (Fin.ofNat 64 (cx + n)) (Fin.ofNat 32 py) := by
        rw [pixel_blitRow b cx py n (by omega), decide_eq_false hfresh, Bool.xor_false]
      simp only [blitRow, hb, if_true, plot, Bool.or_eq_true, hpx, true_and]
    · simp [blitRow, hb]

/-- Some set sprite bit lands on pixel (p, q). -/
def spriteCovers (s : State) (cx cy n : Nat) (p : Fin 64) (q : Fin 32) : Prop :=
  ∃ r < n, ∃ c < 8, spriteBit s r c = true ∧ p = Fin.ofNat 64 (cx + c) ∧ q = Fin.ofNat 32 (cy + r)

theorem spriteCovers_succ (s : State) (cx cy n : Nat) (p : Fin 64) (q : Fin 32) :
    spriteCovers s cx cy (n + 1) p q ↔ spriteCovers s cx cy n p q ∨
      ∃ c < 8, (s.readByte (s.indexAddr n)).getLsbD (7 - c) = true ∧
        p = Fin.ofNat 64 (cx + c) ∧ q = Fin.ofNat 32 (cy + n) := by
  constructor
  · rintro ⟨r, hr, h⟩
    rcases Nat.lt_succ_iff_lt_or_eq.mp hr with hr' | rfl
    · exact .inl ⟨r, hr', h⟩
    · exact .inr h
  · rintro (⟨r, hr, h⟩ | h)
    · exact ⟨r, by omega, h⟩
    · exact ⟨n, by omega, h⟩

/-- Two rows of one sprite never meet. -/
theorem spriteCovers_row_ne {s : State} {cx cy n : Nat} (hn : n < 32) {p : Fin 64} {q : Fin 32}
    (h : spriteCovers s cx cy n p q) : q ≠ Fin.ofNat 32 (cy + n) := by
  rintro hq
  obtain ⟨r, hr, c, -, -, -, hq'⟩ := h
  have := congrArg Fin.val (hq'.symm.trans hq)
  simp [Fin.ofNat] at this
  omega

/-- The whole sprite: the pixels its set bits land on are toggled, once each, and no others. -/
theorem pixel_blitRows (s : State) (cx cy n : Nat) (hn : n ≤ 32) (z : Blit) (p : Fin 64) (q : Fin 32) :
    (spriteCovers s cx cy n p q →
      Display.pixel (blitRows s cx cy n z).disp p q = !Display.pixel z.disp p q) ∧
    (¬ spriteCovers s cx cy n p q →
      Display.pixel (blitRows s cx cy n z).disp p q = Display.pixel z.disp p q) := by
  induction n with
  | zero => exact ⟨fun ⟨r, hr, _⟩ => absurd hr (Nat.not_lt_zero r), fun _ => rfl⟩
  | succ n ih =>
    have ih := ih (by omega)
    rw [blitRows, pixel_blitRow _ _ _ 8 (by omega), spriteCovers_succ]
    by_cases hrow : ∃ c < 8, (s.readByte (s.indexAddr n)).getLsbD (7 - c) = true ∧
        p = Fin.ofNat 64 (cx + c) ∧ q = Fin.ofNat 32 (cy + n)
    · have hnot : ¬ spriteCovers s cx cy n p q := fun h => by
        obtain ⟨c, -, -, -, hq⟩ := hrow
        exact spriteCovers_row_ne (by omega) h hq
      rw [decide_eq_true hrow, ih.2 hnot]
      exact ⟨fun _ => Bool.xor_true _, fun h => absurd (Or.inr hrow) h⟩
    · rw [decide_eq_false hrow, Bool.xor_false]
      exact ⟨fun h => ih.1 (h.resolve_right hrow), fun h => ih.2 fun hc => h (.inl hc)⟩

/-- The whole sprite: `hit` is set when some set bit lands on a pixel that was set before the draw. -/
theorem hit_blitRows (s : State) (cx cy n : Nat) (hn : n ≤ 32) (z : Blit) :
    (blitRows s cx cy n z).hit = true ↔ z.hit = true ∨
      ∃ r < n, ∃ c < 8, spriteBit s r c = true ∧
        Display.pixel z.disp (Fin.ofNat 64 (cx + c)) (Fin.ofNat 32 (cy + r)) = true := by
  induction n with
  | zero => simp [blitRows]
  | succ n ih =>
    rw [blitRows, hit_blitRow _ _ _ 8 (by omega), ih (by omega)]
    have hrow : ∀ c : Nat, Display.pixel (blitRows s cx cy n z).disp (Fin.ofNat 64 (cx + c))
        (Fin.ofNat 32 (cy + n)) = Display.pixel z.disp (Fin.ofNat 64 (cx + c)) (Fin.ofNat 32 (cy + n)) :=
      fun c => (pixel_blitRows s cx cy n (by omega) z _ _).2 fun h =>
        spriteCovers_row_ne (by omega) h rfl
    simp only [hrow]
    constructor
    · rintro ((h | ⟨r, hr, h⟩) | h)
      · exact .inl h
      · exact .inr ⟨r, by omega, h⟩
      · exact .inr ⟨n, by omega, h⟩
    · rintro (h | ⟨r, hr, h⟩)
      · exact .inl (.inl h)
      · rcases Nat.lt_succ_iff_lt_or_eq.mp hr with hr' | rfl
        · exact .inl (.inr ⟨r, hr', h⟩)
        · exact .inr h

/-! ### Register transfers -/

/-- Storing registers changes memory only, and keeps its canonical form. -/
theorem storeRegs_frame (n : Nat) (s : State) :
    ∃ m, storeRegs n s = { s with mem := m } ∧ (s.memWf → ({ s with mem := m } : State).memWf) := by
  induction n with
  | zero => exact ⟨s.mem, rfl, id⟩
  | succ n ih =>
    obtain ⟨m, hm, hw⟩ := ih
    refine ⟨(storeRegs (n + 1) s).mem, ?_, fun h => ?_⟩
    · simp only [storeRegs, hm]
      rfl
    · have := State.memWf_writeByte (hw h) ((storeRegs n s).indexAddr n)
        ((storeRegs n s).getV (Fin.ofNat 16 n))
      simp only [storeRegs, hm]
      rw [hm] at this
      exact this

theorem memWf_storeRegs (n : Nat) {s : State} (h : s.memWf) : (storeRegs n s).memWf := by
  obtain ⟨m, hm, hw⟩ := storeRegs_frame n s
  rw [hm]
  exact hw h

/-- A byte outside the stored ones reads as before. -/
theorem readByte_storeRegs_other {n a : Nat} {s : State} (h : s.memWf)
    (ha : ∀ k < n, maskAddr a ≠ maskAddr (s.indexAddr k)) :
    (storeRegs n s).readByte a = s.readByte a := by
  induction n with
  | zero => rfl
  | succ n ih =>
    have hi : (storeRegs n s).indexAddr n = s.indexAddr n := by
      obtain ⟨m, hm, -⟩ := storeRegs_frame n s
      rw [hm]
      rfl
    simp only [storeRegs]
    rw [State.readByte_writeByte (memWf_storeRegs n h), hi, if_neg (ha n (by omega)),
      ih fun k hk => ha k (by omega)]

/-- The stored bytes are the registers (43_index_memory R89). -/
theorem readByte_storeRegs {n k : Nat} {s : State} (h : s.memWf) (hn : n ≤ memSize) (hk : k < n) :
    (storeRegs n s).readByte (s.indexAddr k) = s.getV (Fin.ofNat 16 k) := by
  induction n with
  | zero => omega
  | succ n ih =>
    obtain ⟨m, hm, -⟩ := storeRegs_frame n s
    have hi : (storeRegs n s).indexAddr n = s.indexAddr n := by rw [hm]; rfl
    have hv : (storeRegs n s).getV (Fin.ofNat 16 n) = s.getV (Fin.ofNat 16 n) := by rw [hm]; rfl
    simp only [storeRegs]
    rw [State.readByte_writeByte (memWf_storeRegs n h), hi, hv]
    rcases Nat.lt_succ_iff_lt_or_eq.mp hk with hk' | rfl
    · have : maskAddr (s.indexAddr k) ≠ maskAddr (s.indexAddr n) := by
        simp only [maskAddr, State.indexAddr, memSize] at hn ⊢
        omega
      rw [if_neg this, ih (by omega) hk']
    · rw [if_pos rfl]

/-- Loading registers changes V only: `V[q]` for `q < n` becomes the byte at `I + q`
(43_index_memory R90). -/
theorem loadRegs_spec (n : Nat) (hn : n ≤ 16) (s : State) :
    (∃ v, loadRegs n s = { s with v := v }) ∧
      ∀ q, (loadRegs n s).getV q = if q.val < n then s.readByte (s.indexAddr q.val) else s.getV q := by
  induction n with
  | zero => exact ⟨⟨s.v, rfl⟩, fun q => by simp [loadRegs]⟩
  | succ n ih =>
    obtain ⟨⟨v, hv⟩, hq⟩ := ih (by omega)
    refine ⟨⟨(loadRegs (n + 1) s).v, ?_⟩, fun q => ?_⟩
    · simp only [loadRegs, hv]
      rfl
    · have hb : (loadRegs n s).readByte ((loadRegs n s).indexAddr n) = s.readByte (s.indexAddr n) := by
        rw [hv]
        rfl
      simp only [loadRegs]
      rw [State.getV_setV, hb, hq q]
      have hval : (Fin.ofNat 16 n).val = n := by simp [Fin.ofNat]; omega
      by_cases he : q = Fin.ofNat 16 n
      · rw [if_pos he, he, hval, if_pos (Nat.lt_succ_self n)]
      · have : q.val ≠ n := fun e => he (Fin.ext (e.trans hval.symm))
        rw [if_neg he]
        by_cases hlt : q.val < n
        · rw [if_pos hlt, if_pos (by omega)]
        · rw [if_neg hlt, if_neg (by omega)]

/-! ### The key wait -/

theorem lowestKey_eq_none (new : KeySet) : lowestKey new = none ↔ new = 0 := by
  constructor
  · intro h
    apply BitVec.eq_of_getLsbD_eq
    intro j hj
    have := List.find?_eq_none.mp h ⟨j, hj⟩ (by
      have : ∀ k : Fin 16, k ∈ allKeys := by decide
      exact this _)
    simpa using this
  · rintro rfl
    decide

/-- The lowest key is one of them, and no lower one is. -/
theorem lowestKey_spec {new : KeySet} {k : Fin 16} (h : lowestKey new = some k) :
    new.getLsbD k.val = true ∧ ∀ j < k, new.getLsbD j.val = false := by
  refine ⟨List.find?_some (p := fun j : Fin 16 => new.getLsbD j.val) h, fun j hj => ?_⟩
  obtain ⟨-, as, bs, hab, hno⟩ := List.find?_eq_some_iff_append.mp h
  have hsplit : ∀ j k : Fin 16, j < k → ∀ n ≤ 16, allKeys[n]? = some k → j ∈ allKeys.take n := by
    decide
  have hk : allKeys[as.length]? = some k := by rw [hab]; simp
  have hlen : as.length ≤ 16 := by
    have := congrArg List.length hab
    simp [allKeys] at this
    omega
  have hmem : j ∈ as := by
    have := hsplit j k hj as.length hlen hk
    rw [hab] at this
    simpa using this
  simpa using hno j hmem

end Sys2Proof.Machine
end

