-- ==== Sys2Proof/Laws/PerInstr.lean ====
section
/-!
SUPPORT. The family RoundTrip: decoding an encoded well-formed instruction gives it back
(30_encoding R52), one lemma per constructor.
-/

namespace Sys2Proof.Laws.RoundTrip

open Sys2Proof

/-- Decoding the instruction's word gives the instruction, with every operand. -/
def Statement (i : Instr) : Prop := i.wf = true → decode (encode i) = .instr i

theorem sys (nnn : BitVec 12) : Statement (.sys nnn) := fun h => by
  simp only [encode, decode, fieldO_wordNNN]
  exact decodeClass0_sys h

theorem cls : Statement (.cls) := fun _ => by decide

theorem ret : Statement (.ret) := fun _ => by decide

theorem jp (nnn : BitVec 12) : Statement (.jp nnn) := fun _ => by
  simp [encode, decode]

theorem call (nnn : BitVec 12) : Statement (.call nnn) := fun _ => by
  simp [encode, decode]

theorem seImm (x : Reg) (kk : Byte) : Statement (.seImm x kk) := fun _ => by
  simp [encode, decode]

theorem sneImm (x : Reg) (kk : Byte) : Statement (.sneImm x kk) := fun _ => by
  simp [encode, decode]

theorem seReg (x y : Reg) : Statement (.seReg x y) := fun _ => by
  simp [encode, decode]

theorem ldImm (x : Reg) (kk : Byte) : Statement (.ldImm x kk) := fun _ => by
  simp [encode, decode]

theorem addImm (x : Reg) (kk : Byte) : Statement (.addImm x kk) := fun _ => by
  simp [encode, decode]

theorem ldReg (x y : Reg) : Statement (.ldReg x y) := fun _ => by
  simp [encode, decode, decodeClass8]

theorem orReg (x y : Reg) : Statement (.orReg x y) := fun _ => by
  simp [encode, decode, decodeClass8]

theorem andReg (x y : Reg) : Statement (.andReg x y) := fun _ => by
  simp [encode, decode, decodeClass8]

theorem xorReg (x y : Reg) : Statement (.xorReg x y) := fun _ => by
  simp [encode, decode, decodeClass8]

theorem addReg (x y : Reg) : Statement (.addReg x y) := fun _ => by
  simp [encode, decode, decodeClass8]

theorem sub (x y : Reg) : Statement (.sub x y) := fun _ => by
  simp [encode, decode, decodeClass8]

theorem shr (x y : Reg) : Statement (.shr x y) := fun _ => by
  simp [encode, decode, decodeClass8]

theorem subn (x y : Reg) : Statement (.subn x y) := fun _ => by
  simp [encode, decode, decodeClass8]

theorem shl (x y : Reg) : Statement (.shl x y) := fun _ => by
  simp [encode, decode, decodeClass8]

theorem sneReg (x y : Reg) : Statement (.sneReg x y) := fun _ => by
  simp [encode, decode]

theorem ldI (nnn : BitVec 12) : Statement (.ldI nnn) := fun _ => by
  simp [encode, decode]

theorem jpV0 (nnn : BitVec 12) : Statement (.jpV0 nnn) := fun _ => by
  simp [encode, decode]

theorem rnd (x : Reg) (kk : Byte) : Statement (.rnd x kk) := fun _ => by
  simp [encode, decode]

theorem drw (x y : Reg) (n : Fin 16) : Statement (.drw x y n) := fun _ => by
  simp [encode, decode]

theorem skp (x : Reg) : Statement (.skp x) := fun _ => by
  simp [encode, decode, decodeClassE]

theorem sknp (x : Reg) : Statement (.sknp x) := fun _ => by
  simp [encode, decode, decodeClassE]

theorem ldVxDt (x : Reg) : Statement (.ldVxDt x) := fun _ => by
  simp [encode, decode, decodeClassF]

theorem ldVxK (x : Reg) : Statement (.ldVxK x) := fun _ => by
  simp [encode, decode, decodeClassF]

theorem ldDtVx (x : Reg) : Statement (.ldDtVx x) := fun _ => by
  simp [encode, decode, decodeClassF]

theorem ldStVx (x : Reg) : Statement (.ldStVx x) := fun _ => by
  simp [encode, decode, decodeClassF]

theorem addIVx (x : Reg) : Statement (.addIVx x) := fun _ => by
  simp [encode, decode, decodeClassF]

theorem ldFVx (x : Reg) : Statement (.ldFVx x) := fun _ => by
  simp [encode, decode, decodeClassF]

theorem ldBVx (x : Reg) : Statement (.ldBVx x) := fun _ => by
  simp [encode, decode, decodeClassF]

theorem ldMemVx (x : Reg) : Statement (.ldMemVx x) := fun _ => by
  simp [encode, decode, decodeClassF]

theorem ldVxMem (x : Reg) : Statement (.ldVxMem x) := fun _ => by
  simp [encode, decode, decodeClassF]

end Sys2Proof.Laws.RoundTrip
end

