-- ==== Sys2Proof/Laws/Step.lean ====
section
/-!
SUPPORT. What a step can do, said once: its three modes, and the inversion that later proofs cite
instead of unfolding it.
-/

namespace Sys2Proof.Machine

open Sys2Proof

theorem step_of_halted {s : State} {f : FatalFault} (h : s.mode = .halted f) : step s = .next s := by
  simp only [step, h, haltedStep]

theorem step_of_awaiting {s : State} {x : Reg} {last : KeySet} (h : s.mode = .awaitingKey x last) :
    step s = keyWaitStep x last s := by
  simp only [step, h]

theorem step_of_instr {s : State} {i : Instr} (h : s.mode = .running) (hd : decode s.fetch = .instr i) :
    step s = exec i s := by
  simp only [step, h, hd]

theorem step_of_unknown {s : State} {w : Word} (h : s.mode = .running)
    (hd : decode s.fetch = .unknown w) : step s = unknownOpcodeStep s := by
  simp only [step, h, hd]

/-- The key-wait step: no new key, or the lowest one ends the wait (45_timers_input_random R103). -/
theorem keyWaitStep_cases (x : Reg) (last : KeySet) (s : State) :
    (s.newKeys last = 0 ∧ keyWaitStep x last s = .next (s.setMode (.awaitingKey x s.keys))) ∨
    (∃ k : Fin 16, (s.newKeys last).getLsbD k.val = true ∧
      (∀ j < k, (s.newKeys last).getLsbD j.val = false) ∧
      keyWaitStep x last s = .next ((s.setV x (keyByte k)).advance.setMode .running)) := by
  rcases h : lowestKey (s.newKeys last) with _ | k
  · exact .inl ⟨(lowestKey_eq_none _).mp h, by simp only [keyWaitStep, h]⟩
  · exact .inr ⟨k, (lowestKey_spec h).1, (lowestKey_spec h).2, by simp only [keyWaitStep, h]⟩

/-- The unknown-opcode step under its two policies (60_exceptions R106). -/
theorem unknownOpcodeStep_cases (s : State) :
    (s.params.unknownPolicy = .nopDiagnostic ∧ unknownOpcodeStep s = .next s.advance) ∨
    (s.params.unknownPolicy = .halt ∧
      unknownOpcodeStep s = .next (s.setMode (.halted .unknownOpcode))) := by
  rcases h : s.params.unknownPolicy with _ | _
  · exact .inl ⟨rfl, by simp only [unknownOpcodeStep, h]⟩
  · exact .inr ⟨rfl, by simp only [unknownOpcodeStep, h, haltWith]⟩

/-- What a step that answers `t` has done (30_encoding R59). -/
theorem step_cases {s t : State} (h : step s = .next t) :
    (∃ f, s.mode = .halted f ∧ t = s) ∨
    (∃ x last, s.mode = .awaitingKey x last ∧ keyWaitStep x last s = .next t) ∨
    (s.mode = .running ∧
      ((∃ w, decode s.fetch = .unknown w ∧ unknownOpcodeStep s = .next t) ∨
        ∃ i, decode s.fetch = .instr i ∧ exec i s = .next t)) := by
  rcases hm : s.mode with _ | ⟨x, last⟩ | f
  · rcases hd : decode s.fetch with i | w
    · exact .inr (.inr ⟨rfl, .inr ⟨i, rfl, step_of_instr hm hd ▸ h⟩⟩)
    · exact .inr (.inr ⟨rfl, .inl ⟨w, rfl, step_of_unknown hm hd ▸ h⟩⟩)
  · exact .inr (.inl ⟨x, last, rfl, step_of_awaiting hm ▸ h⟩)
  · rw [step_of_halted hm] at h
    injection h with h
    exact .inl ⟨f, rfl, h.symm⟩

/-- A cycle's state is the step's next state. -/
theorem cycleState_of_next {s t : State} (h : step s = .next t) : cycleState s = t := by
  simp only [cycleState, h]

/-- The tick outside `Halted` (60_exceptions R116). -/
theorem tick_of_not_halted {s : State} (h : ∀ f, s.mode ≠ .halted f) :
    tick s = (s.setDt (countDown s.dt)).setSt (countDown s.st) := by
  rcases hm : s.mode with _ | ⟨x, last⟩ | f
  · simp only [tick, hm]
  · simp only [tick, hm]
  · exact absurd hm (h f)

theorem tick_of_halted {s : State} {f : FatalFault} (h : s.mode = .halted f) : tick s = s := by
  simp only [tick, h]

/-- Decrement floored at 0 (60_exceptions R116). -/
theorem countDown_toNat (b : Byte) : (countDown b).toNat = b.toNat - 1 := by
  unfold countDown
  split
  · simp_all
  · have : b.toNat ≠ 0 := fun e => ‹¬ b = 0› (BitVec.eq_of_toNat_eq e)
    rw [BitVec.toNat_sub]
    have := b.isLt
    simp
    omega

end Sys2Proof.Machine
end

