-- ==== Sys2Proof/Tests/Slice0.lean ====
section
/-!
SUPPORT. Tests: the check refuses ill-formed terms; every constructor's word, written bit by bit from
30_encoding R51 and R61, decodes to it; one-step vectors of 95_test_vectors L1 and L2 (the vector's
number stands in each comment); and a witness for the hypotheses of every statement of
Certificates/Slice0/Obligations.lean.
-/

namespace Sys2Proof.Tests

open Sys2Proof Sys2Proof.Machine

/-! ### Small states -/

/-- The reset state with the listed registers set. -/
def regs (l : List (Reg × Byte)) : State := l.foldl (fun s p => s.setV p.1 p.2) State.reset

/-- Bytes stored from `a` on. -/
def withBytes (a : Nat) : List Byte → State → State
  | [], s => s
  | b :: bs, s => withBytes (a + 1) bs (s.writeByte a b)

/-- The word placed at PC, the machine running. -/
def atWord (w : Nat) (s : State) : State := s.withFetchWord 16 w

/-- One cycle on the word placed at PC. -/
def run (w : Nat) (s : State) : State := cycleState (atWord w s)

/-- The reset state with other parameters. -/
def altParams : Params where
  unknownPolicy := .halt
  shiftSource := .vy
  logicVfReset := true
  loadStoreIncrement := true
  jumpOffsetReg := .vx
  fontBase := 0x1B0

/-- `s` under `altParams`. -/
def alt (s : State) : State := { s with params := altParams }

/-- `s` with a full stack. -/
def full (s : State) : State := { s with sp := 16 }

/-- `s` with some pixels set. -/
def lit (c : Fin 64) (r : Fin 32) (s : State) : State := s.setDisp (Display.toggle s.disp c r)

/-! ### Well-formedness (30_encoding R52, R55): the only ill-formed terms -/

theorem test_wf_refuses_sys_0E0 : (Instr.sys 0x0E0).wf = false := by decide
theorem test_wf_refuses_sys_0EE : (Instr.sys 0x0EE).wf = false := by decide
theorem test_wf_accepts_sys_0E1 : (Instr.sys 0x0E1).wf = true := by decide

/-! ### Decoding: a word of every constructor, from its row of 30_encoding R61 -/

theorem test_decode_class0 :
    decode 0b0000000100100011#16 = .instr (.sys 0x123) ∧
    decode 0b0000000011100000#16 = .instr .cls ∧
    decode 0b0000000011101110#16 = .instr .ret := by decide

theorem test_decode_addresses :
    decode 0b0001101010111100#16 = .instr (.jp 0xABC) ∧
    decode 0b0010001100000001#16 = .instr (.call 0x301) ∧
    decode 0b1010111111110000#16 = .instr (.ldI 0xFF0) ∧
    decode 0b1011001100000100#16 = .instr (.jpV0 0x304) := by decide

theorem test_decode_immediates :
    decode 0b0011000101000010#16 = .instr (.seImm 1 0x42) ∧
    decode 0b0100111001000011#16 = .instr (.sneImm 14 0x43) ∧
    decode 0b0110101001011100#16 = .instr (.ldImm 10 0x5C) ∧
    decode 0b0111000011111111#16 = .instr (.addImm 0 0xFF) ∧
    decode 0b1100000100001111#16 = .instr (.rnd 1 0x0F) := by decide

theorem test_decode_two_registers :
    decode 0b0101000100100000#16 = .instr (.seReg 1 2) ∧
    decode 0b1001111000010000#16 = .instr (.sneReg 14 1) ∧
    decode 0b1101000000010101#16 = .instr (.drw 0 1 5) := by decide

theorem test_decode_class8 :
    decode 0b1000000100100000#16 = .instr (.ldReg 1 2) ∧
    decode 0b1000000100100001#16 = .instr (.orReg 1 2) ∧
    decode 0b1000000100100010#16 = .instr (.andReg 1 2) ∧
    decode 0b1000000100100011#16 = .instr (.xorReg 1 2) ∧
    decode 0b1000000100100100#16 = .instr (.addReg 1 2) ∧
    decode 0b1000000100100101#16 = .instr (.sub 1 2) ∧
    decode 0b1000000100100110#16 = .instr (.shr 1 2) ∧
    decode 0b1000000100100111#16 = .instr (.subn 1 2) ∧
    decode 0b1000000100101110#16 = .instr (.shl 1 2) := by decide

theorem test_decode_keys :
    decode 0b1110001010011110#16 = .instr (.skp 2) ∧
    decode 0b1110001010100001#16 = .instr (.sknp 2) := by decide

theorem test_decode_classF :
    decode 0b1111001100000111#16 = .instr (.ldVxDt 3) ∧
    decode 0b1111000100001010#16 = .instr (.ldVxK 1) ∧
    decode 0b1111001100010101#16 = .instr (.ldDtVx 3) ∧
    decode 0b1111001100011000#16 = .instr (.ldStVx 3) ∧
    decode 0b1111001000011110#16 = .instr (.addIVx 2) ∧
    decode 0b1111010000101001#16 = .instr (.ldFVx 4) ∧
    decode 0b1111000000110011#16 = .instr (.ldBVx 0) ∧
    decode 0b1111000101010101#16 = .instr (.ldMemVx 1) ∧
    decode 0b1111001001100101#16 = .instr (.ldVxMem 2) := by decide

/-- 30_encoding R54. -/
theorem test_decode_unknown :
    decode 0x5121 = .unknown 0x5121 ∧ decode 0x8008 = .unknown 0x8008 ∧
    decode 0x800F = .unknown 0x800F ∧ decode 0x9121 = .unknown 0x9121 ∧
    decode 0xE19F = .unknown 0xE19F ∧ decode 0xF0FF = .unknown 0xF0FF := by decide

theorem test_decodeTableWord :
    decodeTableWord 16 0x1ABC = some (.jp 0xABC) ∧ decodeTableWord 16 0x5121 = none := by decide

/-! ### Control transfer -/

/-- X5: 0x00E1 is SYS. -/
theorem test_sys : (run 0x00E1 State.reset).pc = 0x202 := by decide
/-- C3. -/
theorem test_jp : (run 0x1ABC State.reset).pc = 0xABC := by decide
/-- X10: the word's second byte wraps to 0x000. -/
theorem test_jp_fetch_wraps :
    (cycleState (withBytes 0xFFF [0x12, 0x34] (State.reset.setPc 0xFFF))).pc = 0x234 := by decide
/-- C7: the sixteenth push. -/
theorem test_call :
    let t := run 0x2500 { State.reset with sp := 15, pc := 0x400 }
    t.stackAt 15 = 0x402 ∧ t.sp = 16 ∧ t.pc = 0x500 := by decide
/-- C8: a full stack. -/
theorem test_call_overflow :
    let s := atWord 0x2500 { State.reset with sp := 16, pc := 0x400 }
    cycleResult s = .errStackOverflow ∧ (cycleState s).mode = .halted .stackOverflow ∧
    (cycleState s).pc = 0x400 ∧ (cycleState s).sp = 16 := by decide
/-- C9. -/
theorem test_ret :
    let t := run 0x00EE ((State.reset.push 0x202).setPc 0x300)
    t.sp = 0 ∧ t.pc = 0x202 ∧ t.stackAt 0 = 0x202 := by decide
/-- C10: an empty stack. -/
theorem test_ret_underflow :
    let s := atWord 0x00EE State.reset
    cycleResult s = .errStackUnderflow ∧ (cycleState s).mode = .halted .stackUnderflow ∧
    (cycleState s).pc = 0x200 := by decide
/-- C12: the sum passes 0xFFF. -/
theorem test_jpV0 : (run 0xBFFF (regs [(0, 0xFF)])).pc = 0x10FE := by decide
/-- C13: `JUMP_OFFSET_REG = Vx`. -/
theorem test_jpV0_vx : (run 0xB300 (alt (regs [(0, 1), (3, 0x10)]))).pc = 0x310 := by decide

/-! ### Skips -/

/-- S1, S2. -/
theorem test_seImm :
    (run 0x3142 (regs [(1, 0x42)])).pc = 0x204 ∧ (run 0x3142 (regs [(1, 0x41)])).pc = 0x202 := by
  decide
/-- S11: PC is not masked. -/
theorem test_seImm_top :
    (cycleState (withBytes 0xFFE [0x30, 0x00] (State.reset.setPc 0xFFE))).pc = 0x1002 := by decide
/-- S3, S4. -/
theorem test_sneImm :
    (run 0x4142 (regs [(1, 0x42)])).pc = 0x202 ∧ (run 0x4142 (regs [(1, 0x41)])).pc = 0x204 := by
  decide
/-- S5, S6. -/
theorem test_seReg :
    (run 0x5120 (regs [(1, 7), (2, 7)])).pc = 0x204 ∧
    (run 0x5120 (regs [(1, 7), (2, 8)])).pc = 0x202 := by decide
/-- S8, S9. -/
theorem test_sneReg :
    (run 0x9120 (regs [(1, 7), (2, 8)])).pc = 0x204 ∧
    (run 0x9120 (regs [(1, 7), (2, 7)])).pc = 0x202 := by decide
/-- T17, T14: the low nibble selects the key. -/
theorem test_skp :
    (run 0xE29E (setKeys 0x0400 (regs [(2, 0x1A)]))).pc = 0x204 ∧
    (run 0xE29E (regs [(2, 0x0A)])).pc = 0x202 := by decide
/-- T15, T16. -/
theorem test_sknp :
    (run 0xE2A1 (regs [(2, 0x0A)])).pc = 0x204 ∧
    (run 0xE2A1 (setKeys 0x0400 (regs [(2, 0x0A)]))).pc = 0x202 := by decide

/-! ### Loads and arithmetic -/

/-- A1, A2. -/
theorem test_ldImm :
    (run 0x6A5C State.reset).getV 10 = 0x5C ∧ (run 0x6F07 (regs [(15, 1)])).getV 15 = 7 := by decide
/-- A3, L1.8. -/
theorem test_addImm :
    let t := run 0x70FF (regs [(0, 5)])
    t.getV 0 = 4 ∧ t.getV VF = 1 ∧ t.pc = 0x202 := by decide
/-- A6, A5: the flag is written last, and cleared without a carry. -/
theorem test_addImm_vf :
    (run 0x7F01 (regs [(15, 0xFF)])).getV VF = 1 ∧
    (run 0x7000 (regs [(0, 5), (15, 1)])).getV VF = 0 := by decide
/-- A7. -/
theorem test_ldReg : (run 0x8120 (regs [(2, 0x33)])).getV 1 = 0x33 := by decide
/-- A8, with both values of `LOGIC_VF_RESET`. -/
theorem test_orReg :
    let s := regs [(1, 0x0F), (2, 0xF0), (15, 1)]
    (run 0x8121 s).getV 1 = 0xFF ∧ (run 0x8121 s).getV VF = 1 ∧ (run 0x8121 (alt s)).getV VF = 0 := by
  decide
/-- A9. -/
theorem test_andReg : (run 0x8122 (regs [(1, 0x3C), (2, 0x0F)])).getV 1 = 0x0C := by decide
/-- A9b, A9c. -/
theorem test_xorReg :
    (run 0x8123 (regs [(1, 0xFF), (2, 0x0F)])).getV 1 = 0xF0 ∧
    (run 0x8113 (regs [(1, 0x5A)])).getV 1 = 0 := by decide
/-- A18: the old VF is the addend. -/
theorem test_addReg :
    let t := run 0x81F4 (regs [(1, 10), (15, 250)])
    t.getV 1 = 4 ∧ t.getV VF = 1 := by decide
/-- A19, A16. -/
theorem test_addReg_vf :
    (run 0x8F14 (regs [(15, 200), (1, 100)])).getV VF = 1 ∧
    (run 0x8124 (regs [(1, 255), (2, 0)])).getV VF = 0 := by decide
/-- A11. -/
theorem test_sub :
    let t := run 0x8125 (regs [(1, 3), (2, 10)])
    t.getV 1 = 249 ∧ t.getV VF = 0 := by decide
/-- A12, A30: equal operands do not borrow. -/
theorem test_sub_equal :
    (run 0x8125 (regs [(1, 7), (2, 7)])).getV VF = 1 ∧ (run 0x8FF5 (regs [(15, 0x30)])).getV VF = 1 := by
  decide
/-- A22, with both values of `SHIFT_SOURCE`. -/
theorem test_shr :
    let s := regs [(1, 0x01), (2, 0x80)]
    (run 0x8126 s).getV 1 = 0 ∧ (run 0x8126 s).getV VF = 1 ∧
    (run 0x8126 (alt s)).getV 1 = 0x40 ∧ (run 0x8126 (alt s)).getV VF = 0 := by decide
/-- A23. -/
theorem test_shr_vf : (run 0x8FF6 (regs [(15, 3)])).getV VF = 1 := by decide
/-- A24, A25. -/
theorem test_subn :
    let t := run 0x8127 (regs [(1, 3), (2, 10)])
    t.getV 1 = 7 ∧ t.getV VF = 1 ∧ (run 0x8127 (regs [(1, 10), (2, 3)])).getV VF = 0 := by decide
/-- A27, A28. -/
theorem test_shl :
    let t := run 0x810E (regs [(1, 0x81)])
    t.getV 1 = 2 ∧ t.getV VF = 1 ∧ (run 0x810E (regs [(1, 0x7F)])).getV 1 = 0xFE := by decide
/-- A29, with both values of `SHIFT_SOURCE`. -/
theorem test_shl_source :
    let s := regs [(1, 0x01), (2, 0x80)]
    (run 0x812E s).getV 1 = 2 ∧ (run 0x812E s).getV VF = 0 ∧
    (run 0x812E (alt s)).getV 1 = 0 ∧ (run 0x812E (alt s)).getV VF = 1 := by decide

/-! ### Address register and memory -/

/-- M1. -/
theorem test_ldI : (run 0xA300 (State.reset.setI 0xFFFF)).i = 0x300 := by decide
/-- M3, M4: I is 16 bits wide and VF stays. -/
theorem test_addIVx :
    (run 0xF21E ((regs [(2, 2)]).setI 0x0FFF)).i = 0x1001 ∧
    (run 0xF21E ((regs [(2, 1), (15, 7)]).setI 0xFFFF)).i = 0 ∧
    (run 0xF21E ((regs [(2, 1), (15, 7)]).setI 0xFFFF)).getV VF = 7 := by decide
/-- M6: the high nibble is ignored. -/
theorem test_ldFVx : (run 0xF429 (regs [(4, 0x1A)])).i = 0x32 := by decide
/-- M8. -/
theorem test_ldBVx :
    let t := run 0xF033 ((regs [(0, 234)]).setI 0x300)
    t.readByte 0x300 = 2 ∧ t.readByte 0x301 = 3 ∧ t.readByte 0x302 = 4 ∧ t.i = 0x300 := by decide
/-- M11: the third address wraps. -/
theorem test_ldBVx_wraps :
    let t := run 0xF033 ((regs [(0, 9)]).setI 0xFFE)
    t.readByte 0xFFE = 0 ∧ t.readByte 0xFFF = 0 ∧ t.readByte 0 = 9 := by decide
/-- M18: the second address wraps. -/
theorem test_ldMemVx :
    let t := run 0xF155 ((regs [(0, 5), (1, 6)]).setI 0xFFF)
    t.readByte 0xFFF = 5 ∧ t.readByte 0 = 6 ∧ t.readByte 1 = 0x90 ∧ t.i = 0xFFF := by decide
/-- M17: `LOADSTORE_I_INCREMENT`. -/
theorem test_ldMemVx_increment : (run 0xF155 (alt (State.reset.setI 0x400))).i = 0x402 := by decide
/-- M15. -/
theorem test_ldVxMem :
    let t := run 0xF265 (withBytes 0x300 [2, 3, 4, 5] (State.reset.setI 0x300))
    t.getV 0 = 2 ∧ t.getV 1 = 3 ∧ t.getV 2 = 4 ∧ t.getV 3 = 0 ∧ t.i = 0x300 := by decide
/-- M19: the font's first byte. -/
theorem test_ldVxMem_font : (run 0xF065 State.reset).getV 0 = 0xF0 := by decide

/-! ### Display -/

/-- D1. -/
theorem test_cls : Display.pixel (run 0x00E0 (lit 63 31 State.reset)).disp 63 31 = false := by decide
/-- D8: one pixel set, one unset. -/
theorem test_drw_collision :
    let t := run 0xD011 (withBytes 0x300 [0xC0] (lit 1 0 (State.reset.setI 0x300)))
    Display.pixel t.disp 0 0 = true ∧ Display.pixel t.disp 1 0 = false ∧ t.getV VF = 1 := by decide
/-- D4: the columns wrap, the row does not. -/
theorem test_drw_wraps :
    let t := run 0xD011 (withBytes 0x300 [0xFF] ((regs [(0, 60), (1, 5)]).setI 0x300))
    Display.pixel t.disp 63 5 = true ∧ Display.pixel t.disp 0 5 = true ∧
    Display.pixel t.disp 3 5 = true ∧ Display.pixel t.disp 4 5 = false ∧
    Display.pixel t.disp 0 6 = false ∧ t.getV VF = 0 := by decide

/-! ### Timers, keys, random -/

/-- T1. -/
theorem test_ldVxDt : (run 0xF307 (State.reset.setDt 0x2A)).getV 3 = 0x2A := by decide
/-- T2. -/
theorem test_ldDtVx : (run 0xF315 (regs [(3, 10)])).dt = 10 := by decide
/-- T3. -/
theorem test_ldStVx :
    (run 0xF318 (regs [(3, 10)])).st = 10 ∧ soundActive (run 0xF318 (regs [(3, 10)])) = true := by decide
/-- T8, T10: the wait starts with the keys as they are. -/
theorem test_ldVxK :
    (run 0xF10A State.reset).mode = .awaitingKey 1 0 ∧ (run 0xF10A State.reset).pc = 0x200 ∧
    (run 0xF10A (setKeys 0x10 State.reset)).mode = .awaitingKey 1 0x10 := by decide
/-- T12: the lowest new key ends it. -/
theorem test_key_wait :
    let t := cycleState (setKeys 0x8006 (run 0xF50A State.reset))
    t.getV 5 = 1 ∧ t.pc = 0x202 ∧ t.mode = .running := by decide
/-- T18, T20: the draw 0xB7. -/
theorem test_rnd :
    (rndWith 0xB7 1 0x0F State.reset).getV 1 = 7 ∧ (rndWith 0xB7 1 0xFF State.reset).getV 1 = 0xB7 := by
  decide
/-- T19: any draw under the mask 0. -/
theorem test_rnd_zero : (run 0xC100 State.reset).getV 1 = 0 := BitVec.and_zero
/-- T5, T6. -/
theorem test_tick :
    (tick State.reset).dt = 0 ∧ (tick ((State.reset.setDt 5).setSt 1)).dt = 4 ∧
    (tick ((State.reset.setDt 5).setSt 1)).st = 0 := by decide

/-! ### Faults and load -/

/-- X2: the no-op policy. -/
theorem test_unknown_nop :
    let s := atWord 0xF0FF State.reset
    cycleResult s = .errUnknownOpcode 0xF0FF 0x200 ∧ (cycleState s).pc = 0x202 ∧
    (cycleState s).mode = .running := by decide
/-- X3: policy Halt. -/
theorem test_unknown_halt :
    let s := atWord 0xF0FF (alt State.reset)
    cycleResult s = .errUnknownOpcode 0xF0FF 0x200 ∧ (cycleState s).pc = 0x200 ∧
    (cycleState s).mode = .halted .unknownOpcode := by decide
/-- X4. -/
theorem test_halted :
    let s := (atWord 0x6105 State.reset).setMode (.halted .stackUnderflow)
    cycleState s = s ∧ cycleResult s = .halted .stackUnderflow := ⟨rfl, rfl⟩
/-- X9. -/
theorem test_load :
    let t := (performLoaded (.load [0x12, 0x00]) (setKeys 3 (regs [(1, 9)]))).1
    t.getV 1 = 0 ∧ t.keys = 3 ∧ t.readByte 0x200 = 0x12 ∧ t.readByte 0x201 = 0 ∧
    t.readByte 0x4F = 0x80 ∧ t.readByte 0x50 = 0 := by decide
/-- R105, D35. -/
theorem test_error_codes :
    [ErrorKind.unknownOpcode, .stackOverflow, .stackUnderflow, .addressOutOfRange,
      .imageTooLarge].map ErrorKind.code = [1, 2, 3, 4, 5] := by decide

/-! ### Witnesses: for every statement with hypotheses, a concrete case that meets them -/

/-- A key wait on its word, for key 4 down when it started. -/
def waiting : State := run 0xF10A (setKeys 0x10 State.reset)

/-- A machine halted by a CALL at depth 16. -/
def haltedFull : State := run 0x2500 (full State.reset)

theorem witness_DecodeInvertsEncode :
    (Instr.sys 0x0ED).wf = true ∧ (Instr.drw 15 14 13).wf = true := by decide
theorem witness_EncodeInvertsDecode :
    decode 0x00EF = .instr (.sys 0x0EF) ∧ decode 0xFF65 = .instr (.ldVxMem 15) := by decide
theorem witness_UnknownWordsAreTheFivePatterns : decode 0x800D = .unknown 0x800D := by decide
/-- The word's second byte is at 0x000. -/
theorem witness_StepRunsTheDecodedInstruction :
    let s := withBytes 0xFFF [0x12, 0x34] (State.reset.setPc 0xFFF)
    s.mode = .running ∧ s.readByte s.pc.toNat = 0x12 ∧ s.readByte (s.pc.toNat + 1) = 0x34 ∧
    decodeBytes 0x12 0x34 = .instr (.jp 0x234) := by decide
theorem witness_CycleFollowsTheMode_modes :
    haltedFull.mode = .halted .stackOverflow ∧ waiting.mode = .awaitingKey 1 0x10 ∧
    State.reset.mode = .running := by decide
theorem witness_CycleFollowsTheMode_words :
    decode (atWord 0x5121 (alt State.reset)).fetch = .unknown 0x5121 ∧
    (atWord 0x5121 (alt State.reset)).params.unknownPolicy = .halt ∧
    decode (atWord 0x00EE State.reset).fetch = .instr .ret ∧
    decode (atWord 0x2500 (full State.reset)).fetch = .instr (.call 0x500) := by decide
theorem witness_NextPcFollowsTheTable_jpV0 :
    (atWord 0xBFFF State.reset).params.jumpOffsetReg = .v0 := by decide
theorem witness_NextPcFollowsTheTable_call :
    (State.reset.push 0x202).sp ≠ 16 ∧ (full State.reset).sp = 16 ∧ State.reset.sp = 0 := by decide
theorem witness_NextPcFollowsTheTable_keyWait :
    waiting.mode = .awaitingKey 1 0x10 ∧ waiting.keys &&& ~~~0x10#16 = 0 ∧
    (setKeys 0x18 waiting).keys &&& ~~~0x10#16 ≠ 0 := by decide
theorem witness_NextPcFollowsTheTable_unknown :
    let s := atWord 0x5121 State.reset
    s.mode = .running ∧ decode s.fetch = .unknown 0x5121 ∧ s.params.unknownPolicy = .nopDiagnostic := by
  decide
theorem witness_VfFollowsTheFlagTable_instr :
    exec (.addImm 15 1) (regs [(15, 0xFF)]) =
      .next (((regs [(15, 0xFF)]).setResultFlag 15 0 1).advance) := rfl
theorem witness_VfFollowsTheFlagTable_keyWait :
    (1 : Reg) ≠ VF ∧ keyWaitStep 1 0x10 (setKeys 0x18 waiting) =
      .next (((setKeys 0x18 waiting).setV 1 3).advance.setMode .running) := ⟨by decide, rfl⟩
theorem witness_EveryStepKeepsTheInvariant_running :
    (atWord 0xF033 (State.reset.setI 0xFFF)).Inv ∧
    step (atWord 0xF033 (State.reset.setI 0xFFF)) = .next (run 0xF033 (State.reset.setI 0xFFF)) :=
  ⟨⟨by unfold State.memWf; decide, trivial⟩, rfl⟩
theorem witness_EveryStepKeepsTheInvariant_waiting :
    waiting.Inv ∧ step waiting = .next (waiting.setMode (.awaitingKey 1 0x10)) :=
  ⟨⟨by unfold State.memWf; decide, show decode _ = _ by decide⟩, rfl⟩
theorem witness_EveryStepKeepsTheInvariant_halted :
    haltedFull.Inv ∧ step haltedFull = .next haltedFull :=
  ⟨⟨by unfold State.memWf; decide, show _ ∧ _ from ⟨by decide, 0x500, by decide⟩⟩, rfl⟩
theorem witness_HostOperationsKeepTheInvariant :
    (Block.uninitialized 3 specParams).Inv ∧ (Block.loaded waiting).Inv :=
  ⟨trivial, witness_EveryStepKeepsTheInvariant_waiting.1⟩
theorem witness_StatesThatReadAlikeAreEqual :
    waiting.memWf ∧ waiting.mem ≠ [] ∧ ∀ c, Unchanged c waiting waiting :=
  ⟨by unfold State.memWf; decide, by decide, fun c => by
    cases c <;> first | rfl | exact fun _ => rfl | exact fun _ _ => rfl⟩
theorem witness_NextFetchSeesAStore : (State.reset.setPc 0xFFF).memWf ∧ 0x1000 % 4096 = 0 := ⟨rfl, rfl⟩
theorem witness_ModeChangesOnlyAsListed_running :
    (atWord 0xF10A State.reset).mode = .running ∧
    step (atWord 0xF10A State.reset) = .next (run 0xF10A State.reset) ∧
    (run 0xF10A State.reset).mode = .awaitingKey 1 0 := ⟨rfl, rfl, rfl⟩
theorem witness_ModeChangesOnlyAsListed_waiting :
    waiting.keys &&& ~~~0x10#16 = 0 ∧ step waiting = .next (cycleState waiting) ∧
    (setKeys 1 waiting).keys &&& ~~~0x10#16 ≠ 0 ∧
    step (setKeys 1 waiting) = .next (cycleState (setKeys 1 waiting)) :=
  ⟨by decide, rfl, by decide, rfl⟩
theorem witness_ModeChangesOnlyAsListed_halted :
    haltedFull.mode = .halted .stackOverflow ∧ step haltedFull = .next haltedFull := ⟨rfl, rfl⟩
theorem witness_FatalFaultChangesOnlyTheMode_overflow :
    (atWord 0x2500 (full State.reset)).mode = .running ∧
    step (atWord 0x2500 (full State.reset)) = .next haltedFull ∧
    haltedFull.mode = .halted .stackOverflow := ⟨rfl, rfl, rfl⟩
theorem witness_FatalFaultChangesOnlyTheMode_underflow :
    (atWord 0x00EE State.reset).mode = .running ∧
    step (atWord 0x00EE State.reset) = .next (run 0x00EE State.reset) ∧
    (run 0x00EE State.reset).mode = .halted .stackUnderflow := ⟨rfl, rfl, rfl⟩
theorem witness_FatalFaultChangesOnlyTheMode_unknown :
    (atWord 0xF0FF (alt State.reset)).mode = .running ∧
    step (atWord 0xF0FF (alt State.reset)) = .next (run 0xF0FF (alt State.reset)) ∧
    (run 0xF0FF (alt State.reset)).mode = .halted .unknownOpcode := ⟨rfl, rfl, rfl⟩
theorem witness_HaltedStaysUntilALoad :
    haltedFull.mode = .halted .stackOverflow ∧
    (∀ op ∈ [HostOp.cycle, .setKeys 5, .tick, .display], op.notLoad = true) ∧
    (List.replicate 3584 (0x11 : Byte)).length ≤ 3584 :=
  ⟨rfl, by simp [HostOp.notLoad], by rw [List.length_replicate]⟩
theorem witness_OnlyClsAndDrwWriteTheDisplay :
    let s := atWord 0x00E0 (lit 0 0 State.reset)
    step s = .next (cycleState s) ∧ (cycleState s).disp ≠ s.disp :=
  ⟨rfl, fun h => absurd (congrArg (fun d => Display.pixel d 0 0) h) (by decide)⟩
theorem witness_OnlyStoresWriteMemory :
    let s := atWord 0xF055 (State.reset.setI 0)
    step s = .next (cycleState s) ∧ (cycleState s).mem ≠ s.mem := ⟨rfl, by decide⟩
theorem witness_OnlyCallAndRetTouchTheStack_call :
    let s := atWord 0x2300 State.reset
    step s = .next (cycleState s) ∧ (cycleState s).stack ≠ s.stack ∧ (cycleState s).sp ≠ s.sp :=
  ⟨rfl, by decide, by decide⟩
theorem witness_OnlyCallAndRetTouchTheStack_ret :
    let s := atWord 0x00EE (full State.reset)
    step s = .next (cycleState s) ∧ (cycleState s).sp ≠ s.sp := ⟨rfl, by decide⟩
theorem witness_TimersAndIndexHaveTheirWritersOnly_timers :
    let s := atWord 0xF315 (regs [(3, 1)])
    let t := atWord 0xF318 (regs [(3, 255)])
    step s = .next (cycleState s) ∧ (cycleState s).dt ≠ s.dt ∧
    step t = .next (cycleState t) ∧ (cycleState t).st ≠ t.st := ⟨rfl, by decide, rfl, by decide⟩
theorem witness_TimersAndIndexHaveTheirWritersOnly_index :
    let s := atWord 0xF065 (alt State.reset)
    step s = .next (cycleState s) ∧ (cycleState s).i ≠ s.i := ⟨rfl, by decide⟩
theorem witness_NoCycleWritesKeysOrParameters :
    step (setKeys 0x18 waiting) = .next (cycleState (setKeys 0x18 waiting)) := rfl
theorem witness_LoadDefinesEveryComponent :
    3584 < (List.replicate 3585 (0x11 : Byte)).length ∧
    (List.replicate 3584 (0x11 : Byte)).length ≤ 3584 := by
  rw [List.length_replicate, List.length_replicate]; decide
theorem witness_SysIsANoOp : (0x0E1 : BitVec 12) ≠ 0x0E0 ∧ (0x0E1 : BitVec 12) ≠ 0x0EE := by decide
theorem witness_CallPushesTheReturnAddress :
    ({ State.reset with sp := 15 } : State).sp ≠ 16 ∧ (full State.reset).sp = 16 := by decide
theorem witness_RetPopsTheReturnAddress :
    ({ State.reset with sp := 1 } : State).sp ≠ 0 ∧ State.reset.sp = 0 := by decide
theorem witness_CallThenRetComesBack :
    let s := atWord 0x2300 (withBytes 0x300 [0x00, 0xEE] { State.reset with sp := 15 })
    s.mode = .running ∧ decode s.fetch = .instr (.call 0x300) ∧ s.sp ≠ 16 ∧
    step s = .next (cycleState s) ∧ decode (cycleState s).fetch = .instr .ret :=
  ⟨rfl, by decide, by decide, rfl, by decide⟩
theorem witness_StackOverflowIsFatalAndPrecise :
    let s := atWord 0x2500 (full State.reset)
    s.mode = .running ∧ s.fetch = 0x2#4 ++ 0x500#12 ∧ s.sp = 16 := by decide
theorem witness_UnknownOpcodeFollowsThePolicy :
    let s := atWord 0xE19F State.reset
    s.mode = .running ∧ decode s.fetch = .unknown 0xE19F ∧
    s.params.unknownPolicy = .nopDiagnostic ∧ (alt s).mode = .running ∧
    decode (alt s).fetch = .unknown 0xE19F ∧ (alt s).params.unknownPolicy = .halt := by decide
/-- A destination that is not VF, and a register that is neither. -/
theorem witness_AddImmSetsTheCarry : (14 : Reg) ≠ VF ∧ (0 : Reg) ≠ 14 ∧ (0 : Reg) ≠ VF := by decide
theorem witness_AddRegSetsTheCarry : (14 : Reg) ≠ VF ∧ (13 : Reg) ≠ 14 ∧ (13 : Reg) ≠ VF := by decide
theorem witness_SubtractionsSetNotBorrow : (0 : Reg) ≠ VF ∧ (14 : Reg) ≠ 0 ∧ (14 : Reg) ≠ VF := by decide
theorem witness_ShiftsMoveTheBitOutToVf :
    let s := regs [(1, 0x01), (2, 0x80)]
    (1 : Reg) ≠ VF ∧ (0 : Reg) ≠ 1 ∧ (0 : Reg) ≠ VF ∧
    ((0x01 : Byte) = match s.params.shiftSource with | .vx => s.getV 1 | .vy => s.getV 2) ∧
    ((0x80 : Byte) = match (alt s).params.shiftSource with
      | .vx => (alt s).getV 1
      | .vy => (alt s).getV 2) := by decide
/-- The digits wrap past the end of memory; 0x001 is outside them. -/
theorem witness_LdBStoresTheDecimalDigits :
    let s := (regs [(0, 255)]).setI 0xFFE
    s.memWf ∧ ∀ k < 3, maskAddr 1 ≠ maskAddr (s.indexAddr k) := ⟨rfl, by decide⟩
/-- All sixteen registers, wrapping past the end of memory; 0x010 is outside them. -/
theorem witness_LdMemStoresTheRegisters :
    let s := State.reset.setI 0xFFF
    s.memWf ∧ (15 : Reg) ≤ 15 ∧ ∀ k : Reg, k ≤ 15 → maskAddr 16 ≠ maskAddr (s.indexAddr k.val) :=
  ⟨rfl, by decide, by decide⟩
theorem witness_LdVxLoadsTheRegisters : (2 : Reg) ≤ 2 ∧ (2 : Reg) < 3 := by decide
/-- The last bit of a 15-row sprite is set; pixel (9, 0) is on none of the sprite's rows. -/
theorem witness_DrwXorsTheSprite :
    let s := withBytes 0x30E [0x01] (State.reset.setI 0x300)
    spriteBit s 14 7 = true ∧ (∀ r < 15, ∀ c < 8, spriteBit s r c = true →
      ¬ ((9 : Fin 64) = sprColumn s 0 c ∧ (0 : Fin 32) = sprRow s 1 r)) := by decide
theorem witness_CollisionIsASetBitOnASetPixel :
    let s := withBytes 0x300 [0xC0] (lit 1 0 (State.reset.setI 0x300))
    spriteBit s 0 1 = true ∧ Display.pixel s.disp (sprColumn s 0 1) (sprRow s 1 0) = true := by decide
theorem witness_DrawingTwiceRestoresTheDisplay :
    (0 : Reg) ≠ VF ∧ (1 : Reg) ≠ VF ∧
    (run 0xD011 (withBytes 0x300 [0xFF] (State.reset.setI 0x300))).getV VF = 0 := by decide
theorem witness_KeyWaitEndsOnTheLowestNewKey_none :
    waiting.mode = .awaitingKey 1 0x10 ∧
    ∀ k : Fin 16, waiting.keys.getLsbD k.val = true → (0x10#16).getLsbD k.val = true := by decide
theorem witness_KeyWaitEndsOnTheLowestNewKey_some :
    let s := setKeys 0x8016 waiting
    s.mode = .awaitingKey 1 0x10 ∧ s.keys.getLsbD 1 = true ∧ (0x10#16).getLsbD 1 = false ∧
    ∀ j < (1 : Fin 16), s.keys.getLsbD j.val = true → (0x10#16).getLsbD j.val = true := by decide
theorem witness_TickCountsTheTimersDown :
    haltedFull.mode = .halted .stackOverflow ∧ ∀ f, waiting.mode ≠ .halted f :=
  ⟨rfl, fun f h => by cases h⟩
theorem witness_TimersReachZeroAfterTheirValueInTicks : ∀ f, State.reset.mode ≠ .halted f :=
  fun f h => by cases h
theorem witness_FrameTicksOnceAfterItsCycles :
    tick waiting = tick (cycleState^[0] (setKeys 0x10 waiting)) := rfl
theorem witness_TimersRunDuringTheKeyWait :
    waiting.mode = .awaitingKey 1 0x10 ∧ 0 < 1 ∧ 0x10#16 &&& ~~~0x10#16 = 0 ∧
    0x11#16 &&& ~~~0x10#16 ≠ 0 := by decide
theorem witness_RunEndsAreFixedPoints :
    runEnd (atWord 0x1200 State.reset) = some .spin ∧
    runEnd haltedFull = some (.faulted .stackOverflow) := by decide

end Sys2Proof.Tests
end

section
/-!
Proofs: the frame of the shared operations, and the loads of 42_alu.
-/

namespace Sys2Proof.Machine

open Sys2Proof

/-! ### Frames compose along a sequence of operations -/

theorem Unchanged.trans {c : Component} {s t u : State} (hst : Unchanged c s t)
    (htu : Unchanged c t u) : Unchanged c s u := by
  cases c with
  | v | stack | mem => exact fun a => (htu a).trans (hst a)
  | disp => exact fun a b => (htu a b).trans (hst a b)
  | i | pc | sp | dt | st | mode | keys | params | draws => exact Eq.trans htu hst

theorem ChangesOnly.trans {cs ds : List Component} {s t u : State} (hst : ChangesOnly cs s t)
    (htu : ChangesOnly ds t u) : ChangesOnly (cs ++ ds) s u := fun c hc =>
  (hst c fun h => hc (List.mem_append_left ds h)).trans
    (htu c fun h => hc (List.mem_append_right cs h))

theorem changesOnly_setV (s : State) (r : Reg) (b : Byte) : ChangesOnly [.v] s (s.setV r b) := by
  intro c hc
  cases c with
  | v => exact absurd (List.mem_singleton_self _) hc
  | _ => simp [Unchanged]

theorem changesOnly_advance (s : State) : ChangesOnly [.pc] s s.advance := by
  intro c hc
  cases c with
  | pc => exact absurd (List.mem_singleton_self _) hc
  | _ => simp [Unchanged]

/-! ### LD Vx, byte -/

theorem exec_ldImm (x : Reg) (kk : Byte) (s : State) :
    exec (.ldImm x kk) s = .next (s.setV x kk).advance := rfl

/-- Settles O34: the word is the encoder's, and the next state is a register write followed by the
advance of PC, so the frame is the two operations' frames composed. -/
theorem ldImmLoadsTheByte : Obligations.LdImmLoadsTheByte := by
  intro x kk s
  have hdecode : decode (encode (.ldImm x kk)) = .instr (.ldImm x kk) :=
    Laws.RoundTrip.ldImm x kk rfl
  have hregs (r : Reg) : (s.setV x kk).advance.getV r = if r = x then kk else s.getV r := by
    rw [State.getV_advance, State.getV_setV]
  have hframe : ChangesOnly [.v, .pc] s (s.setV x kk).advance :=
    (changesOnly_setV s x kk).trans (changesOnly_advance _)
  exact ⟨hdecode, _, exec_ldImm x kk s, hregs, rfl, hframe⟩

end Sys2Proof.Machine
end

section
/-!
Proofs: 44_display, the clearing of the display.
-/

namespace Sys2Proof.Machine

open Sys2Proof

theorem changesOnly_setDisp (s : State) (d : Display) : ChangesOnly [.disp] s (s.setDisp d) := by
  intro c hc
  cases c with
  | disp => exact absurd (List.mem_singleton_self _) hc
  | _ => simp [Unchanged]

/-! ### CLS -/

theorem exec_cls (s : State) : exec .cls s = .next (s.setDisp clearedDisplay).advance := rfl

/-- Settles O44: CLS stores the cleared display, all of whose pixels are unset, and advances PC (R92),
so the frame is the two operations' frames composed; VF stands in neither. -/
theorem clsClearsTheDisplay : Obligations.ClsClearsTheDisplay := by
  intro s
  have hdecode : decode 0x00E0#16 = .instr .cls := Laws.RoundTrip.cls rfl
  have hpixels (c : Fin 64) (r : Fin 32) :
      Display.pixel (s.setDisp clearedDisplay).advance.disp c r = false := by
    rw [State.advance_disp, State.setDisp_disp, pixel_clearedDisplay]
  have hpc : (s.setDisp clearedDisplay).advance.pc = s.pc + 2 := by
    rw [State.advance_pc, State.setDisp_pc]
  have hframe : ChangesOnly [.disp, .pc] s (s.setDisp clearedDisplay).advance :=
    (changesOnly_setDisp s _).trans (changesOnly_advance _)
  exact ⟨hdecode, _, exec_cls s, hpixels, hpc, hframe⟩

end Sys2Proof.Machine
end

section
/-!
Proofs: 45_timers_input_random, the skips on a key. The frame and the PC of a skip hold of every
condition; what SKP and SKNP add is which key their condition reads.
-/

namespace Sys2Proof.Machine

open Sys2Proof

/-! ### Skips -/

theorem changesOnly_setPc (s : State) (w : Word) : ChangesOnly [.pc] s (s.setPc w) := by
  intro c hc
  cases c with
  | pc => exact absurd (List.mem_singleton_self _) hc
  | _ => simp [Unchanged]

theorem changesOnly_skipIf (s : State) (c : Bool) : ChangesOnly [.pc] s (s.skipIf c) := by
  rw [State.skipIf_eq]
  exact changesOnly_setPc s _

theorem State.skipIf_pc (s : State) (c : Bool) :
    (s.skipIf c).pc = if c then s.pc + 4 else s.pc + 2 := by
  rw [State.skipIf_eq, State.setPc_pc]

/-! ### SKP and SKNP -/

theorem lowNibble_val (b : Byte) : (lowNibble b).val = b.toNat % 16 := by
  simp [lowNibble]

theorem keyDown_lowNibble (s : State) (b : Byte) :
    s.keyDown (lowNibble b) = s.keys.getLsbD (b.toNat % 16) := by
  rw [State.keyDown, lowNibble_val]

theorem exec_skp (x : Reg) (s : State) :
    exec (.skp x) s = .next (s.skipIf (s.keyDown (lowNibble (s.getV x)))) := rfl

theorem exec_sknp (x : Reg) (s : State) :
    exec (.sknp x) s = .next (s.skipIf (!s.keyDown (lowNibble (s.getV x)))) := rfl

/-- Settles O33: both instructions are one skip, on the key of `Vx`'s low nibble (R100) and on its
negation (R101); the negation exchanges the two targets. -/
theorem keySkipsTestTheLowNibblesKey : Obligations.KeySkipsTestTheLowNibblesKey := by
  intro x s
  have hskp : decode (encode (.skp x)) = .instr (.skp x) := Laws.RoundTrip.skp x rfl
  have hsknp : decode (encode (.sknp x)) = .instr (.sknp x) := Laws.RoundTrip.sknp x rfl
  refine ⟨⟨hskp, _, exec_skp x s, ?skpPc, changesOnly_skipIf s _⟩,
    ⟨hsknp, _, exec_sknp x s, ?sknpPc, changesOnly_skipIf s _⟩⟩
  case skpPc => rw [State.skipIf_pc, keyDown_lowNibble]
  case sknpPc =>
    rw [State.skipIf_pc, keyDown_lowNibble]
    cases s.keys.getLsbD ((s.getV x).toNat % 16) with
    | true => rfl
    | false => rfl

end Sys2Proof.Machine
end

section
/-!
Proofs: 60_exceptions, the stack overflow and the sound output.
-/

namespace Sys2Proof.Machine

open Sys2Proof

/-! ### A fatal fault -/

theorem changesOnly_setMode (s : State) (m : Mode) : ChangesOnly [.mode] s (s.setMode m) := by
  intro c hc
  cases c with
  | mode => exact absurd (List.mem_singleton_self _) hc
  | _ => simp [Unchanged]

theorem exec_call_of_full (nnn : BitVec 12) {s : State} (h : s.sp = 16) :
    exec (.call nnn) s = .next (s.setMode (.halted .stackOverflow)) :=
  if_pos h

theorem cycleResult_of_instr {s : State} {i : Instr} (h : s.mode = .running)
    (hd : decode s.fetch = .instr i) : cycleResult s = instrResult (exec i s) := by
  simp only [cycleResult, h, hd]

/-- Settles O30: the fetched word decodes to CALL, which with a full stack only writes `Mode`; the
result is read off the mode written (R107). -/
theorem stackOverflowIsFatalAndPrecise : Obligations.StackOverflowIsFatalAndPrecise := by
  intro nnn s hrun hword hfull
  have hdecode : decode s.fetch = .instr (.call nnn) := by
    rw [hword]
    exact Laws.RoundTrip.call nnn rfl
  have hexec := exec_call_of_full nnn hfull
  have hresult : cycleResult s = .errStackOverflow := by
    rw [cycleResult_of_instr hrun hdecode, hexec]
    rfl
  have hstep : step s = .next (s.setMode (.halted .stackOverflow)) :=
    (step_of_instr hrun hdecode).trans hexec
  exact ⟨hresult, _, hstep, State.setMode_mode s _, changesOnly_setMode s _⟩

/-! ### The sound output -/

theorem soundActive_eq (s : State) : soundActive s = decide (0 < s.st.toNat) := by
  have hpos : s.st ≠ 0 ↔ 0 < s.st.toNat := by bv_omega
  rw [Bool.eq_iff_iff, soundActive, bne_iff_ne, decide_eq_true_iff, hpos]

/-- Settles O54: the operation keeps the state and answers `soundActive`, which asks that ST is not 0
(R118); of a byte that is the same as above 0. -/
theorem soundIsOnWhileStIsPositive : Obligations.SoundIsOnWhileStIsPositive := by
  intro s
  have hanswer : performLoaded .sound s = (s, .sound (soundActive s)) := rfl
  rw [hanswer, soundActive_eq]

end Sys2Proof.Machine
end

section
/-!
Proofs: 30_encoding, decoding and encoding invert each other, and the words that decode to nothing.
-/

namespace Sys2Proof

/-! ### Decoding inverts encoding -/

/-- Settles O1: one round trip per constructor (R52, R61), each a lemma of `Laws.RoundTrip`. -/
theorem decodeInvertsEncode : Obligations.DecodeInvertsEncode := by
  intro i
  cases i with
  | sys nnn => exact Laws.RoundTrip.sys nnn
  | cls => exact Laws.RoundTrip.cls
  | ret => exact Laws.RoundTrip.ret
  | jp nnn => exact Laws.RoundTrip.jp nnn
  | call nnn => exact Laws.RoundTrip.call nnn
  | seImm x kk => exact Laws.RoundTrip.seImm x kk
  | sneImm x kk => exact Laws.RoundTrip.sneImm x kk
  | seReg x y => exact Laws.RoundTrip.seReg x y
  | ldImm x kk => exact Laws.RoundTrip.ldImm x kk
  | addImm x kk => exact Laws.RoundTrip.addImm x kk
  | ldReg x y => exact Laws.RoundTrip.ldReg x y
  | orReg x y => exact Laws.RoundTrip.orReg x y
  | andReg x y => exact Laws.RoundTrip.andReg x y
  | xorReg x y => exact Laws.RoundTrip.xorReg x y
  | addReg x y => exact Laws.RoundTrip.addReg x y
  | sub x y => exact Laws.RoundTrip.sub x y
  | shr x y => exact Laws.RoundTrip.shr x y
  | subn x y => exact Laws.RoundTrip.subn x y
  | shl x y => exact Laws.RoundTrip.shl x y
  | sneReg x y => exact Laws.RoundTrip.sneReg x y
  | ldI nnn => exact Laws.RoundTrip.ldI nnn
  | jpV0 nnn => exact Laws.RoundTrip.jpV0 nnn
  | rnd x kk => exact Laws.RoundTrip.rnd x kk
  | drw x y n => exact Laws.RoundTrip.drw x y n
  | skp x => exact Laws.RoundTrip.skp x
  | sknp x => exact Laws.RoundTrip.sknp x
  | ldVxDt x => exact Laws.RoundTrip.ldVxDt x
  | ldVxK x => exact Laws.RoundTrip.ldVxK x
  | ldDtVx x => exact Laws.RoundTrip.ldDtVx x
  | ldStVx x => exact Laws.RoundTrip.ldStVx x
  | addIVx x => exact Laws.RoundTrip.addIVx x
  | ldFVx x => exact Laws.RoundTrip.ldFVx x
  | ldBVx x => exact Laws.RoundTrip.ldBVx x
  | ldMemVx x => exact Laws.RoundTrip.ldMemVx x
  | ldVxMem x => exact Laws.RoundTrip.ldVxMem x

/-- Settles O4: each word is closed, so its decoding is computed. -/
theorem sampleWordsDecodeAsTheSpecSays : Obligations.SampleWordsDecodeAsTheSpecSays := by
  unfold Obligations.SampleWordsDecodeAsTheSpecSays
  decide

/-! ### A word laid out again from known fields -/

section Fields

variable {w : Word} {o : BitVec 4}

theorem wordNNN_of_fieldO (ho : fieldO w = o) : wordNNN o (fieldNNN w) = w :=
  ho ▸ wordNNN_fields w

theorem wordXKK_of_fieldO (ho : fieldO w = o) : wordXKK o (fieldX w) (fieldKK w) = w :=
  ho ▸ wordXKK_fields w

theorem wordXKK_of_fieldKK {kk : Byte} (ho : fieldO w = o) (hk : fieldKK w = kk) :
    wordXKK o (fieldX w) kk = w :=
  hk ▸ wordXKK_of_fieldO ho

theorem wordXYN_of_fieldO (ho : fieldO w = o) :
    wordXYN o (fieldX w) (fieldY w) (fieldN w) = w :=
  ho ▸ wordXYN_fields w

theorem wordXYN_of_fieldN {n : Fin 16} (ho : fieldO w = o) (hn : fieldN w = n) :
    wordXYN o (fieldX w) (fieldY w) n = w :=
  hn ▸ wordXYN_of_fieldO ho

end Fields

/-! ### What a decoding says of its word -/

/-- What a decoding of `w` claims (R54, R57): `w` is the one word of a well-formed instruction, or
`w` is unknown. -/
def DecodesSoundly (w : Word) : Decoded → Prop
  | .instr i => encode i = w ∧ i.wf = true
  | .unknown w' => w' = w

theorem decodeClass0_sound {w : Word} (ho : fieldO w = 0x0) :
    DecodesSoundly w (decodeClass0 w) := by
  have hsys : wordNNN 0x0 (fieldNNN w) = w := wordNNN_of_fieldO ho
  unfold decodeClass0
  split_ifs with hcls hret
  · exact ⟨hcls.symm, rfl⟩
  · exact ⟨hret.symm, rfl⟩
  · have h0E0 : fieldNNN w ≠ 0x0E0#12 := fun h => hcls (by rw [← hsys, h]; rfl)
    have h0EE : fieldNNN w ≠ 0x0EE#12 := fun h => hret (by rw [← hsys, h]; rfl)
    exact ⟨hsys, by simp [Instr.wf, h0E0, h0EE]⟩

theorem decodeClass8_sound {w : Word} (ho : fieldO w = 0x8) :
    DecodesSoundly w (decodeClass8 w) := by
  simp only [decodeClass8]
  split_ifs with h0 h1 h2 h3 h4 h5 h6 h7 hE
  · exact ⟨wordXYN_of_fieldN ho h0, rfl⟩
  · exact ⟨wordXYN_of_fieldN ho h1, rfl⟩
  · exact ⟨wordXYN_of_fieldN ho h2, rfl⟩
  · exact ⟨wordXYN_of_fieldN ho h3, rfl⟩
  · exact ⟨wordXYN_of_fieldN ho h4, rfl⟩
  · exact ⟨wordXYN_of_fieldN ho h5, rfl⟩
  · exact ⟨wordXYN_of_fieldN ho h6, rfl⟩
  · exact ⟨wordXYN_of_fieldN ho h7, rfl⟩
  · exact ⟨wordXYN_of_fieldN ho hE, rfl⟩
  · rfl

theorem decodeClassE_sound {w : Word} (ho : fieldO w = 0xE) :
    DecodesSoundly w (decodeClassE w) := by
  unfold decodeClassE
  split_ifs with h9E hA1
  · exact ⟨wordXKK_of_fieldKK ho h9E, rfl⟩
  · exact ⟨wordXKK_of_fieldKK ho hA1, rfl⟩
  · rfl

theorem decodeClassF_sound {w : Word} (ho : fieldO w = 0xF) :
    DecodesSoundly w (decodeClassF w) := by
  simp only [decodeClassF]
  split_ifs with h07 h0A h15 h18 h1E h29 h33 h55 h65
  · exact ⟨wordXKK_of_fieldKK ho h07, rfl⟩
  · exact ⟨wordXKK_of_fieldKK ho h0A, rfl⟩
  · exact ⟨wordXKK_of_fieldKK ho h15, rfl⟩
  · exact ⟨wordXKK_of_fieldKK ho h18, rfl⟩
  · exact ⟨wordXKK_of_fieldKK ho h1E, rfl⟩
  · exact ⟨wordXKK_of_fieldKK ho h29, rfl⟩
  · exact ⟨wordXKK_of_fieldKK ho h33, rfl⟩
  · exact ⟨wordXKK_of_fieldKK ho h55, rfl⟩
  · exact ⟨wordXKK_of_fieldKK ho h65, rfl⟩
  · rfl

/-- The exact-nibble test of classes 5 and 9 (R52). -/
theorem registerPair_sound {w : Word} {i : Instr}
    (h : fieldN w = 0 → encode i = w ∧ i.wf = true) :
    DecodesSoundly w (if fieldN w = 0 then .instr i else .unknown w) := by
  split_ifs with hn
  · exact h hn
  · rfl

theorem fieldO_of_toNat {w : Word} {k : Nat} (h : (fieldO w).toNat = k) :
    fieldO w = BitVec.ofNat 4 k := by
  rw [← h, BitVec.ofNat_toNat, BitVec.setWidth_eq]

theorem decode_sound (w : Word) : DecodesSoundly w (decode w) := by
  simp only [decode]
  split
  case h_1 h => exact decodeClass0_sound (fieldO_of_toNat h)
  case h_9 h => exact decodeClass8_sound (fieldO_of_toNat h)
  case h_15 h => exact decodeClassE_sound (fieldO_of_toNat h)
  case h_16 h => exact decodeClassF_sound (fieldO_of_toNat h)
  case h_2 h | h_3 h | h_11 h | h_12 h => exact ⟨wordNNN_of_fieldO (fieldO_of_toNat h), rfl⟩
  case h_4 h | h_5 h | h_7 h | h_8 h | h_13 h =>
    exact ⟨wordXKK_of_fieldO (fieldO_of_toNat h), rfl⟩
  case h_6 h | h_10 h =>
    exact registerPair_sound fun hn => ⟨wordXYN_of_fieldN (fieldO_of_toNat h) hn, rfl⟩
  case h_14 h => exact ⟨wordXYN_of_fieldO (fieldO_of_toNat h), rfl⟩
  case h_17 => rfl

/-- Settles O2: the soundness of decoding, read at a word that decodes to an instruction. -/
theorem encodeInvertsDecode : Obligations.EncodeInvertsDecode := by
  intro w i hdecode
  have h : DecodesSoundly w (.instr i) := hdecode ▸ decode_sound w
  exact h

/-! ### The unknown words -/

theorem decode_unknown {w w' : Word} (h : decode w = .unknown w') : w' = w := by
  have hs : DecodesSoundly w (.unknown w') := h ▸ decode_sound w
  exact hs

theorem decodeClass0_ne_unknown (w w' : Word) : decodeClass0 w ≠ .unknown w' := by
  unfold decodeClass0
  split_ifs <;> nofun

theorem decodeClass8_unknown (w : Word) : decodeClass8 w = .unknown w ↔
    w.extractLsb' 0 4 ∈ [0x8#4, 0x9#4, 0xA#4, 0xB#4, 0xC#4, 0xD#4, 0xF#4] := by
  simp only [decodeClass8, ← ofFin_fieldN]
  generalize fieldN w = n
  fin_cases n <;> simp

theorem decodeClassE_unknown (w : Word) :
    decodeClassE w = .unknown w ↔ w.extractLsb' 0 8 ∉ [0x9E#8, 0xA1#8] := by
  unfold decodeClassE fieldKK
  split_ifs <;> simp_all

theorem decodeClassF_unknown (w : Word) : decodeClassF w = .unknown w ↔
    w.extractLsb' 0 8 ∉
      [0x07#8, 0x0A#8, 0x15#8, 0x18#8, 0x1E#8, 0x29#8, 0x33#8, 0x55#8, 0x65#8] := by
  unfold decodeClassF fieldKK
  split_ifs <;> simp_all

theorem fieldN_eq_zero (w : Word) : fieldN w = 0 ↔ w.extractLsb' 0 4 = 0x0#4 := by
  rw [← ofFin_fieldN]
  generalize fieldN w = n
  fin_cases n <;> simp

theorem decode_unknown_iff (w : Word) : decode w = .unknown w ↔
    (w.extractLsb' 12 4 = 0x5#4 ∧ w.extractLsb' 0 4 ≠ 0x0#4) ∨
    (w.extractLsb' 12 4 = 0x8#4 ∧
      w.extractLsb' 0 4 ∈ [0x8#4, 0x9#4, 0xA#4, 0xB#4, 0xC#4, 0xD#4, 0xF#4]) ∨
    (w.extractLsb' 12 4 = 0x9#4 ∧ w.extractLsb' 0 4 ≠ 0x0#4) ∨
    (w.extractLsb' 12 4 = 0xE#4 ∧ w.extractLsb' 0 8 ∉ [0x9E#8, 0xA1#8]) ∨
    (w.extractLsb' 12 4 = 0xF#4 ∧ w.extractLsb' 0 8 ∉
      [0x07#8, 0x0A#8, 0x15#8, 0x18#8, 0x1E#8, 0x29#8, 0x33#8, 0x55#8, 0x65#8]) := by
  have hclass : w.extractLsb' 12 4 = fieldO w := rfl
  rw [hclass]
  simp only [decode]
  split
  case h_1 h => simp [fieldO_of_toNat h, decodeClass0_ne_unknown]
  case h_6 h | h_10 h => simp [fieldO_of_toNat h, fieldN_eq_zero]
  case h_9 h => simp [fieldO_of_toNat h, decodeClass8_unknown]
  case h_15 h => simp [fieldO_of_toNat h, decodeClassE_unknown]
  case h_16 h => simp [fieldO_of_toNat h, decodeClassF_unknown]
  case h_2 h | h_3 h | h_4 h | h_5 h | h_7 h | h_8 h | h_11 h | h_12 h | h_13 h | h_14 h =>
    simp [fieldO_of_toNat h]
  case h_17 =>
    have hlt := (fieldO w).isLt
    simp only [imp_false] at *
    omega

/-- Settles O3: an unknown word is reported as itself, and the classes that can report one are the
five of R54, each with its own test. -/
theorem unknownWordsAreTheFivePatterns : Obligations.UnknownWordsAreTheFivePatterns :=
  fun w => ⟨fun _ => decode_unknown, decode_unknown_iff w⟩

end Sys2Proof
end

section
/-!
Proofs: what every instruction answers, and the components it writes.
-/

namespace Sys2Proof.Machine

open Sys2Proof

/-! ### What each instruction answers -/

theorem exec_sys (nnn : BitVec 12) (s : State) : exec (.sys nnn) s = .next s.advance := rfl

theorem exec_ret_of_empty {s : State} (h : s.sp = 0) :
    exec .ret s = .next (s.setMode (.halted .stackUnderflow)) := if_pos h

theorem exec_ret_of_nonempty {s : State} (h : s.sp ≠ 0) :
    exec .ret s = .next (s.dropTop.setPc (s.stackAt (s.sp.val - 1))) := by
  rw [← s.dropTop_sp_val]
  exact if_neg h

theorem exec_call_of_room (nnn : BitVec 12) {s : State} (h : s.sp ≠ 16) :
    exec (.call nnn) s = .next ((s.push (s.pc + 2)).setPc (zextAddr nnn)) := if_neg h

/-- Every instruction answers a next state: no arm of `exec` faults or refuses (R109). -/
theorem exec_answers (i : Instr) (s : State) : ∃ t, exec i s = .next t := by
  cases i with
  | ret =>
    by_cases h : s.sp = 0
    · exact ⟨_, exec_ret_of_empty h⟩
    · exact ⟨_, exec_ret_of_nonempty h⟩
  | call nnn =>
    by_cases h : s.sp = 16
    · exact ⟨_, exec_call_of_full nnn h⟩
    · exact ⟨_, exec_call_of_room nnn h⟩
  | _ => exact ⟨_, rfl⟩

/-! ### The frames of the other operations -/

section Frames

variable (s : State)

theorem changesOnly_refl : ChangesOnly [] s s := by
  intro c _
  cases c with
  | _ => simp [Unchanged]

variable {s} in
theorem ChangesOnly.mono {cs ds : List Component} {t : State} (h : ChangesOnly cs s t)
    (hsub : cs ⊆ ds) : ChangesOnly ds s t := fun c hc => h c fun hcs => hc (hsub hcs)

theorem changesOnly_setI (w : Word) : ChangesOnly [.i] s (s.setI w) := by
  intro c hc
  cases c with
  | i => exact absurd (List.mem_singleton_self _) hc
  | _ => simp [Unchanged]

theorem changesOnly_setDt (b : Byte) : ChangesOnly [.dt] s (s.setDt b) := by
  intro c hc
  cases c with
  | dt => exact absurd (List.mem_singleton_self _) hc
  | _ => simp [Unchanged]

theorem changesOnly_setSt (b : Byte) : ChangesOnly [.st] s (s.setSt b) := by
  intro c hc
  cases c with
  | st => exact absurd (List.mem_singleton_self _) hc
  | _ => simp [Unchanged]

theorem changesOnly_countDraw : ChangesOnly [.draws] s s.countDraw := by
  intro c hc
  cases c with
  | draws => exact absurd (List.mem_singleton_self _) hc
  | _ => simp [Unchanged]

theorem changesOnly_setKeys (k : KeySet) : ChangesOnly [.keys] s (setKeys k s) := by
  intro c hc
  cases c with
  | keys => exact absurd (List.mem_singleton_self _) hc
  | _ => simp [Unchanged]

theorem changesOnly_dropTop : ChangesOnly [.sp] s s.dropTop := by
  intro c hc
  cases c with
  | sp => exact absurd (List.mem_singleton_self _) hc
  | _ => simp [Unchanged]

theorem changesOnly_push (w : Word) : ChangesOnly [.stack, .sp] s (s.push w) := by
  intro c hc
  cases c with
  | stack | sp => exact absurd (by decide) hc
  | _ => simp [Unchanged]

theorem changesOnly_setMem (m : Memory) : ChangesOnly [.mem] s { s with mem := m } := by
  intro c hc
  cases c with
  | mem => exact absurd (List.mem_singleton_self _) hc
  | _ => simp [Unchanged, State.getV, State.stackAt]

theorem changesOnly_writeByte (a : Nat) (b : Byte) : ChangesOnly [.mem] s (s.writeByte a b) :=
  changesOnly_setMem s _

theorem changesOnly_setResultFlag (x : Reg) (b f : Byte) :
    ChangesOnly [.v] s (s.setResultFlag x b f) :=
  ((changesOnly_setV s x b).trans (changesOnly_setV _ VF f)).mono (by simp)

theorem changesOnly_logicVf : ChangesOnly [.v] s s.logicVf := by
  rw [State.logicVf_eq]
  split
  · exact changesOnly_setV s VF 0
  · exact (changesOnly_refl s).mono (by simp)

theorem changesOnly_storeRegs (n : Nat) : ChangesOnly [.mem] s (storeRegs n s) := by
  obtain ⟨m, hm, -⟩ := storeRegs_frame n s
  exact hm ▸ changesOnly_setMem s m

theorem changesOnly_loadRegs (n : Nat) : ChangesOnly [.v] s (loadRegs n s) := by
  induction n with
  | zero => exact (changesOnly_refl s).mono (by simp)
  | succ n ih => exact (ih.trans (changesOnly_setV _ _ _)).mono (by simp)

/-- A register transfer moves I only under `LOADSTORE_I_INCREMENT` (D9). -/
theorem changesOnly_transferI (x : Reg) :
    ChangesOnly (if s.params.loadStoreIncrement then [.i] else []) s (s.transferI x) := by
  unfold State.transferI
  split
  · exact changesOnly_setI s _
  · exact changesOnly_refl s

end Frames

/-! ### The components an instruction writes -/

/-- The components that an instruction may write in `s`: a fatal fault and the key wait write `Mode`
alone (R102, R111). -/
def writtenBy (i : Instr) (s : State) : List Component :=
  match i with
  | .cls => [.disp, .pc]
  | .ret => if s.sp = 0 then [.mode] else [.sp, .pc]
  | .call _ => if s.sp = 16 then [.mode] else [.stack, .sp, .pc]
  | .ldImm _ _ | .addImm _ _ | .ldReg _ _ | .orReg _ _ | .andReg _ _ | .xorReg _ _ | .addReg _ _
  | .sub _ _ | .shr _ _ | .subn _ _ | .shl _ _ | .ldVxDt _ => [.v, .pc]
  | .ldI _ | .addIVx _ | .ldFVx _ => [.i, .pc]
  | .rnd _ _ => [.v, .pc, .draws]
  | .drw _ _ _ => [.disp, .v, .pc]
  | .ldVxK _ => [.mode]
  | .ldDtVx _ => [.dt, .pc]
  | .ldStVx _ => [.st, .pc]
  | .ldBVx _ => [.mem, .pc]
  | .ldMemVx _ => .mem :: ((if s.params.loadStoreIncrement then [.i] else []) ++ [.pc])
  | .ldVxMem _ => .v :: ((if s.params.loadStoreIncrement then [.i] else []) ++ [.pc])
  | .sys _ | .jp _ | .jpV0 _ | .seImm _ _ | .sneImm _ _ | .seReg _ _ | .sneReg _ _ | .skp _
  | .sknp _ => [.pc]

theorem ChangesOnly.advance {cs : List Component} {s t : State} (h : ChangesOnly cs s t) :
    ChangesOnly (cs ++ [.pc]) s t.advance := h.trans (changesOnly_advance t)

theorem changesOnly_logic (s : State) (x : Reg) (b : Byte) :
    ChangesOnly [.v, .pc] s (s.setV x b).logicVf.advance :=
  ((changesOnly_setV s x b).trans (changesOnly_logicVf _)).advance.mono (by simp)

/-- An instruction changes only what it writes (10_state R33). -/
theorem exec_changesOnly {i : Instr} {s t : State} (h : exec i s = .next t) :
    ChangesOnly (writtenBy i s) s t := by
  cases i with
  | sys nnn => cases h; exact changesOnly_advance s
  | cls => cases h; exact (changesOnly_setDisp s _).advance
  | ret =>
    by_cases hsp : s.sp = 0
    · rw [exec_ret_of_empty hsp] at h
      cases h
      simpa [writtenBy, hsp] using changesOnly_setMode s _
    · rw [exec_ret_of_nonempty hsp] at h
      cases h
      simpa [writtenBy, hsp] using (changesOnly_dropTop s).trans (changesOnly_setPc _ _)
  | call nnn =>
    by_cases hsp : s.sp = 16
    · rw [exec_call_of_full nnn hsp] at h
      cases h
      simpa [writtenBy, hsp] using changesOnly_setMode s _
    · rw [exec_call_of_room nnn hsp] at h
      cases h
      simpa [writtenBy, hsp] using (changesOnly_push s _).trans (changesOnly_setPc _ _)
  | jp nnn | jpV0 nnn => cases h; exact changesOnly_setPc s _
  | seImm x kk | sneImm x kk | seReg x y | sneReg x y | skp x | sknp x =>
    cases h; exact changesOnly_skipIf s _
  | ldImm x kk | ldReg x y | ldVxDt x => cases h; exact (changesOnly_setV s x _).advance
  | addImm x kk | addReg x y | sub x y | shr x y | subn x y | shl x y =>
    cases h; exact (changesOnly_setResultFlag s x _ _).advance
  | orReg x y | andReg x y | xorReg x y => cases h; exact changesOnly_logic s x _
  | ldI nnn | addIVx x | ldFVx x => cases h; exact (changesOnly_setI s _).advance
  | rnd x kk =>
    cases h
    exact ((changesOnly_countDraw s).trans (changesOnly_setV _ x _).advance).mono
      (by simp [writtenBy])
  | drw x y n =>
    cases h; exact ((changesOnly_setDisp s _).trans (changesOnly_setV _ VF _)).advance
  | ldVxK x => cases h; exact changesOnly_setMode s _
  | ldDtVx x => cases h; exact (changesOnly_setDt s _).advance
  | ldStVx x => cases h; exact (changesOnly_setSt s _).advance
  | ldBVx x =>
    cases h
    exact (((changesOnly_writeByte s _ _).trans (changesOnly_writeByte _ _ _)).trans
      (changesOnly_writeByte _ _ _)).advance.mono (by simp [writtenBy])
  | ldMemVx x =>
    cases h
    have hparams := changesOnly_storeRegs s (x.val + 1) .params (by decide)
    have := ((changesOnly_storeRegs s (x.val + 1)).trans (changesOnly_transferI _ x)).advance
    rwa [hparams] at this
  | ldVxMem x =>
    cases h
    have hparams := changesOnly_loadRegs s (x.val + 1) .params (by decide)
    have := ((changesOnly_loadRegs s (x.val + 1)).trans (changesOnly_transferI _ x)).advance
    rwa [hparams] at this

end Sys2Proof.Machine
end

section
/-!
Proofs: 10_state R18, the next PC; 40_control_flow; 41_skips.
-/

namespace Sys2Proof.Machine

open Sys2Proof

/-! ### The next PC of an instruction -/

@[simp] theorem State.logicVf_pc (s : State) : s.logicVf.pc = s.pc :=
  changesOnly_logicVf s .pc (by decide)

@[simp] theorem State.transferI_pc (s : State) (x : Reg) : (s.transferI x).pc = s.pc := by
  rw [State.transferI_eq, State.setI_pc]

@[simp] theorem storeRegs_pc (n : Nat) (s : State) : (storeRegs n s).pc = s.pc :=
  changesOnly_storeRegs s n .pc (by decide)

@[simp] theorem loadRegs_pc (n : Nat) (s : State) : (loadRegs n s).pc = s.pc :=
  changesOnly_loadRegs s n .pc (by decide)

theorem State.jumpOffset_of_v0 {s : State} (h : s.params.jumpOffsetReg = .v0) (nnn : BitVec 12) :
    s.jumpOffset nnn = s.getV 0 := by
  rw [State.jumpOffset, h]

theorem exec_pc {i : Instr} {s t : State} (h : exec i s = .next t)
    (hj : ∀ nnn, i = .jpV0 nnn → s.params.jumpOffsetReg = .v0) : t.pc = nextPcTable i s := by
  cases i with
  | ret =>
    by_cases hsp : s.sp = 0
    · rw [exec_ret_of_empty hsp] at h
      cases h
      simp [nextPcTable, hsp]
    · rw [exec_ret_of_nonempty hsp] at h
      cases h
      simp [nextPcTable, hsp]
  | call nnn =>
    by_cases hsp : s.sp = 16
    · rw [exec_call_of_full nnn hsp] at h
      cases h
      simp [nextPcTable, hsp]
    · rw [exec_call_of_room nnn hsp] at h
      cases h
      simp [nextPcTable, hsp, zextAddr]
  | seImm x kk | sneImm x kk | seReg x y | sneReg x y | skp x | sknp x =>
    cases h
    simp [nextPcTable, State.skipIf_pc]
  | jpV0 nnn =>
    cases h
    rw [State.setPc_pc, State.jumpOffset_of_v0 (hj nnn rfl)]
    rfl
  | orReg x y | andReg x y | xorReg x y | ldMemVx x | ldVxMem x =>
    cases h
    simp [nextPcTable]
  | _ => cases h; rfl

theorem exec_call_stackAt {nnn : BitVec 12} {s t : State} (h : exec (.call nnn) s = .next t)
    (hsp : s.sp ≠ 16) (j : Nat) : t.stackAt j = if j = s.sp.val then s.pc + 2 else s.stackAt j := by
  rw [exec_call_of_room nnn hsp] at h
  cases h
  rw [State.stackAt_setPc, State.stackAt_push _ _ _ hsp]

/-! ### SYS, JP and JP V0 -/

/-- Settles O25: SYS is the advance of PC alone (R63). -/
theorem sysIsANoOp : Obligations.SysIsANoOp := by
  intro nnn s
  have hdecode (h0 : nnn ≠ 0x0E0#12) (h1 : nnn ≠ 0x0EE#12) :
      decode (encode (.sys nnn)) = .instr (.sys nnn) :=
    Laws.RoundTrip.sys nnn (by simp [Instr.wf, h0, h1])
  exact ⟨hdecode, _, exec_sys nnn s, s.advance_pc, changesOnly_advance s⟩

theorem exec_jp (nnn : BitVec 12) (s : State) :
    exec (.jp nnn) s = .next (s.setPc (zextAddr nnn)) := rfl

theorem exec_jpV0 (nnn : BitVec 12) (s : State) :
    exec (.jpV0 nnn) s = .next (s.setPc (zextAddr nnn + zextByte (s.jumpOffset nnn))) := rfl

/-- Settles O26: both jumps are one write of PC (R65, R67); the offset of JP V0 is the register that
the parameter selects. -/
theorem jumpsSetThePc : Obligations.JumpsSetThePc := fun nnn s =>
  ⟨⟨Laws.RoundTrip.jp nnn rfl, _, exec_jp nnn s, rfl, changesOnly_setPc s _⟩,
    ⟨Laws.RoundTrip.jpV0 nnn rfl, _, exec_jpV0 nnn s, rfl, changesOnly_setPc s _⟩⟩

/-! ### CALL and RET -/

/-- Settles O27: with room CALL is a push and a write of PC (R66), else the fatal fault. -/
theorem callPushesTheReturnAddress : Obligations.CallPushesTheReturnAddress := by
  intro nnn s
  refine ⟨Laws.RoundTrip.call nnn rfl, fun hroom => ?_, exec_call_of_full nnn⟩
  have hexec := exec_call_of_room nnn hroom
  have hsp := s.push_sp_val (s.pc + 2) hroom
  exact ⟨_, hexec, exec_call_stackAt hexec hroom, hsp, rfl,
    (changesOnly_push s _).trans (changesOnly_setPc _ _)⟩

/-- Settles O28: with an entry RET drops the top and goes to it (R64), else the fatal fault. -/
theorem retPopsTheReturnAddress : Obligations.RetPopsTheReturnAddress := by
  intro s
  refine ⟨Laws.RoundTrip.ret rfl, fun hentry => ?_, exec_ret_of_empty⟩
  exact ⟨_, exec_ret_of_nonempty hentry, s.dropTop_sp_val, rfl,
    (changesOnly_dropTop s).trans (changesOnly_setPc _ _)⟩

/-- Settles O29: the CALL leaves its return address on top and the depth one more, so the RET finds an
entry, goes to it and restores the depth. -/
theorem callThenRetComesBack : Obligations.CallThenRetComesBack := by
  intro nnn s hrun hcall hroom
  have hexec := exec_call_of_room nnn hroom
  refine ⟨_, (step_of_instr hrun hcall).trans hexec, fun hret => ?_⟩
  set t := (s.push (s.pc + 2)).setPc (zextAddr nnn) with ht
  have htsp : t.sp.val = s.sp.val + 1 := s.push_sp_val (s.pc + 2) hroom
  have hentry : t.sp ≠ 0 := fun h => by
    have := congrArg Fin.val h
    simp only [Fin.val_zero] at this
    omega
  have htop : t.stackAt (t.sp.val - 1) = s.pc + 2 := by
    rw [exec_call_stackAt hexec hroom, htsp, Nat.add_sub_cancel, if_pos rfl]
  have husp : t.dropTop.sp = s.sp := Fin.ext (by rw [t.dropTop_sp_val, htsp, Nat.add_sub_cancel])
  have hframe := (exec_changesOnly hexec).trans (exec_changesOnly (exec_ret_of_nonempty hentry))
  have hret_step := (step_of_instr (s := t) hrun hret).trans (exec_ret_of_nonempty hentry)
  refine ⟨_, hret_step, htop, husp, fun c hc => ?_⟩
  by_cases hc_sp : c = .sp
  · exact hc_sp ▸ husp
  · exact hframe c (by simp_all [writtenBy])

/-! ### Register skips -/

theorem exec_seImm (x : Reg) (kk : Byte) (s : State) :
    exec (.seImm x kk) s = .next (s.skipIf (s.getV x == kk)) := rfl

theorem exec_sneImm (x : Reg) (kk : Byte) (s : State) :
    exec (.sneImm x kk) s = .next (s.skipIf (s.getV x != kk)) := rfl

theorem exec_seReg (x y : Reg) (s : State) :
    exec (.seReg x y) s = .next (s.skipIf (s.getV x == s.getV y)) := rfl

theorem exec_sneReg (x y : Reg) (s : State) :
    exec (.sneReg x y) s = .next (s.skipIf (s.getV x != s.getV y)) := rfl

theorem State.skipIf_beq_pc (s : State) (a b : Byte) :
    (s.skipIf (a == b)).pc = if a = b then s.pc + 4 else s.pc + 2 := by
  simp [State.skipIf_pc]

theorem State.skipIf_bne_pc (s : State) (a b : Byte) :
    (s.skipIf (a != b)).pc = if a = b then s.pc + 2 else s.pc + 4 := by
  simp [State.skipIf_pc]

/-- Settles O32: SE is one skip on an equality and SNE on its negation (R69-R72). -/
theorem registerSkipsMoveThePc : Obligations.RegisterSkipsMoveThePc := fun x y kk s =>
  ⟨⟨Laws.RoundTrip.seImm x kk rfl, _, exec_seImm x kk s, s.skipIf_beq_pc _ _,
      changesOnly_skipIf s _⟩,
    ⟨Laws.RoundTrip.sneImm x kk rfl, _, exec_sneImm x kk s, s.skipIf_bne_pc _ _,
      changesOnly_skipIf s _⟩,
    ⟨Laws.RoundTrip.seReg x y rfl, _, exec_seReg x y s, s.skipIf_beq_pc _ _,
      changesOnly_skipIf s _⟩,
    ⟨Laws.RoundTrip.sneReg x y rfl, _, exec_sneReg x y s, s.skipIf_bne_pc _ _,
      changesOnly_skipIf s _⟩⟩

end Sys2Proof.Machine
end

section
/-!
Proofs: 42_alu, register moves, logic, arithmetic and shifts.
-/

namespace Sys2Proof.Machine

open Sys2Proof

/-! ### A result and its flag -/

theorem flagByte_decide (p : Prop) [Decidable p] : flagByte (decide p) = if p then 1 else 0 := by
  simp [flagByte]

theorem flagByte_toNat (b : Bool) : (flagByte b).toNat = b.toNat := by
  cases b with
  | true => rfl
  | false => rfl

section ResultFlag

variable (s : State) {x r : Reg} (b f : Byte)

theorem getV_resultFlag_VF : (s.setResultFlag x b f).advance.getV VF = f := by
  rw [State.getV_advance, State.getV_setResultFlag, if_pos rfl]

theorem getV_resultFlag_self (hx : x ≠ VF) : (s.setResultFlag x b f).advance.getV x = b := by
  rw [State.getV_advance, State.getV_setResultFlag, if_neg hx, if_pos rfl]

theorem getV_resultFlag_other (hrx : r ≠ x) (hr : r ≠ VF) :
    (s.setResultFlag x b f).advance.getV r = s.getV r := by
  rw [State.getV_advance, State.getV_setResultFlag, if_neg hr, if_neg hrx]

end ResultFlag

/-! ### What each arithmetic instruction answers -/

section Answers

variable (x y : Reg) (kk : Byte) (s : State)

theorem exec_addImm : exec (.addImm x kk) s =
    .next (s.setResultFlag x (s.getV x + kk) (carryFlag (s.getV x) kk)).advance := rfl

theorem exec_addReg : exec (.addReg x y) s =
    .next (s.setResultFlag x (s.getV x + s.getV y) (carryFlag (s.getV x) (s.getV y))).advance := rfl

theorem exec_sub : exec (.sub x y) s =
    .next (s.setResultFlag x (s.getV x - s.getV y) (notBorrowFlag (s.getV x) (s.getV y))).advance :=
  rfl

theorem exec_subn : exec (.subn x y) s =
    .next (s.setResultFlag x (s.getV y - s.getV x) (notBorrowFlag (s.getV y) (s.getV x))).advance :=
  rfl

theorem exec_shr : exec (.shr x y) s = .next (s.setResultFlag x (s.shiftOperand x y >>> 1)
    (shiftedOutRight (s.shiftOperand x y))).advance := rfl

theorem exec_shl : exec (.shl x y) s = .next (s.setResultFlag x (s.shiftOperand x y <<< 1)
    (shiftedOutLeft (s.shiftOperand x y))).advance := rfl

theorem exec_ldReg : exec (.ldReg x y) s = .next (s.setV x (s.getV y)).advance := rfl

theorem exec_orReg : exec (.orReg x y) s =
    .next (s.setV x (s.getV x ||| s.getV y)).logicVf.advance := rfl

theorem exec_andReg : exec (.andReg x y) s =
    .next (s.setV x (s.getV x &&& s.getV y)).logicVf.advance := rfl

theorem exec_xorReg : exec (.xorReg x y) s =
    .next (s.setV x (s.getV x ^^^ s.getV y)).logicVf.advance := rfl

end Answers

/-! ### The flags and the differences as numbers -/

theorem carryFlag_eq (a b : Byte) :
    carryFlag a b = if 255 < a.toNat + b.toNat then 1 else 0 := flagByte_decide _

theorem notBorrowFlag_eq (a b : Byte) :
    notBorrowFlag a b = if b.toNat ≤ a.toNat then 1 else 0 := flagByte_decide _

theorem toNat_byte_sub (a b : Byte) : (a - b).toNat = (a.toNat + 256 - b.toNat) % 256 := by
  have := b.isLt
  rw [BitVec.toNat_sub]
  congr 1
  omega

theorem shiftedOutRight_toNat (a : Byte) : (shiftedOutRight a).toNat = a.toNat % 2 := by
  rw [shiftedOutRight, flagByte_toNat, BitVec.getLsbD, Nat.testBit_zero]
  rcases Nat.mod_two_eq_zero_or_one a.toNat with h | h <;> simp [h]

theorem shiftedOutLeft_toNat (a : Byte) : (shiftedOutLeft a).toNat = a.toNat / 128 := by
  have hlt : a.toNat / 128 < 2 := by have := a.isLt; omega
  rw [shiftedOutLeft, flagByte_toNat, BitVec.getLsbD, Nat.testBit_eq_decide_div_mod_eq]
  have hcases : a.toNat / 128 = 0 ∨ a.toNat / 128 = 1 := by omega
  rcases hcases with h | h <;> simp [h]

/-! ### ADD, SUB, SUBN -/

/-- Settles O35: one result with its carry (R75). -/
theorem addImmSetsTheCarry : Obligations.AddImmSetsTheCarry := by
  intro x kk s
  have hexec := exec_addImm x kk s
  refine ⟨Laws.RoundTrip.addImm x kk rfl, _, hexec, ?flag, fun hx => ?result,
    fun r => getV_resultFlag_other s _ _, rfl, exec_changesOnly hexec⟩
  case flag => rw [getV_resultFlag_VF, carryFlag_eq]
  case result => rw [getV_resultFlag_self s _ _ hx, BitVec.toNat_add]

/-- Settles O37: one result with its carry (R80). -/
theorem addRegSetsTheCarry : Obligations.AddRegSetsTheCarry := by
  intro x y s
  have hexec := exec_addReg x y s
  refine ⟨Laws.RoundTrip.addReg x y rfl, _, hexec, ?flag, fun hx => ?result,
    fun r => getV_resultFlag_other s _ _, rfl, exec_changesOnly hexec⟩
  case flag => rw [getV_resultFlag_VF, carryFlag_eq]
  case result => rw [getV_resultFlag_self s _ _ hx, BitVec.toNat_add]

/-- Settles O38: one difference each, with its not-borrow (R81, R83). -/
theorem subtractionsSetNotBorrow : Obligations.SubtractionsSetNotBorrow := by
  intro x y s
  have hsub := exec_sub x y s
  have hsubn := exec_subn x y s
  refine ⟨⟨Laws.RoundTrip.sub x y rfl, _, hsub, ?subFlag, fun hx => ?subResult,
      fun r => getV_resultFlag_other s _ _, rfl, exec_changesOnly hsub⟩,
    ⟨Laws.RoundTrip.subn x y rfl, _, hsubn, ?subnFlag, fun hx => ?subnResult,
      fun r => getV_resultFlag_other s _ _, rfl, exec_changesOnly hsubn⟩⟩
  case subFlag | subnFlag => rw [getV_resultFlag_VF, notBorrowFlag_eq]
  case subResult | subnResult => rw [getV_resultFlag_self s _ _ hx, toNat_byte_sub]

/-! ### SHR and SHL -/

/-- Settles O39: one shift each of the selected source, with the bit shifted out (R82, R84). -/
theorem shiftsMoveTheBitOutToVf : Obligations.ShiftsMoveTheBitOutToVf := by
  intro x y s src hsrc
  have hoperand : s.shiftOperand x y = src := hsrc.symm
  have hshr := exec_shr x y s
  have hshl := exec_shl x y s
  refine ⟨⟨Laws.RoundTrip.shr x y rfl, _, hshr, ?shrFlag, fun hx => ?shrResult,
      fun r => getV_resultFlag_other s _ _, rfl, exec_changesOnly hshr⟩,
    ⟨Laws.RoundTrip.shl x y rfl, _, hshl, ?shlFlag, fun hx => ?shlResult,
      fun r => getV_resultFlag_other s _ _, rfl, exec_changesOnly hshl⟩⟩
  case shrFlag => rw [getV_resultFlag_VF, shiftedOutRight_toNat, hoperand]
  case shlFlag => rw [getV_resultFlag_VF, shiftedOutLeft_toNat, hoperand]
  case shrResult =>
    rw [getV_resultFlag_self s _ _ hx, hoperand, BitVec.toNat_ushiftRight, Nat.shiftRight_one]
  case shlResult =>
    rw [getV_resultFlag_self s _ _ hx, hoperand, BitVec.toNat_shiftLeft, Nat.shiftLeft_eq,
      Nat.pow_one, Nat.mul_comm]

/-! ### LD Vx, Vy and the logic operations -/

theorem getV_setV_advance (s : State) (x r : Reg) (b : Byte) :
    (s.setV x b).advance.getV r = if r = x then b else s.getV r := by
  rw [State.getV_advance, State.getV_setV]

theorem State.getV_logicVf (s : State) (r : Reg) :
    s.logicVf.getV r = if r = VF ∧ s.params.logicVfReset = true then 0 else s.getV r := by
  rw [State.logicVf_eq]
  split_ifs with hreset hr hr
  · rw [hr.1, State.getV_setV_self]
  · rw [State.getV_setV, if_neg fun h => hr ⟨h, hreset⟩]
  · exact absurd hr.2 hreset
  · rfl

theorem getV_logic (s : State) (x r : Reg) (b : Byte) :
    (s.setV x b).logicVf.advance.getV r =
      if r = VF ∧ s.params.logicVfReset = true then 0 else if r = x then b else s.getV r := by
  rw [State.getV_advance, State.getV_logicVf, State.getV_setV, State.setV_params]

theorem logic_pc (s : State) (x : Reg) (b : Byte) :
    (s.setV x b).logicVf.advance.pc = s.pc + 2 := by
  rw [State.advance_pc, State.logicVf_pc, State.setV_pc]

/-- Settles O36: LD is one register write; each logic operation is one too, followed by the reset of VF
that the parameter asks for (R76-R79). -/
theorem movesAndLogicWriteVx : Obligations.MovesAndLogicWriteVx := fun x y s =>
  ⟨⟨Laws.RoundTrip.ldReg x y rfl, _, exec_ldReg x y s, fun r => getV_setV_advance s x r _, rfl,
      exec_changesOnly (exec_ldReg x y s)⟩,
    ⟨Laws.RoundTrip.orReg x y rfl, _, exec_orReg x y s, fun r => getV_logic s x r _,
      logic_pc s x _, changesOnly_logic s x _⟩,
    ⟨Laws.RoundTrip.andReg x y rfl, _, exec_andReg x y s, fun r => getV_logic s x r _,
      logic_pc s x _, changesOnly_logic s x _⟩,
    ⟨Laws.RoundTrip.xorReg x y rfl, _, exec_xorReg x y s, fun r => getV_logic s x r _,
      logic_pc s x _, changesOnly_logic s x _⟩⟩

end Sys2Proof.Machine
end

section
/-!
Proofs: 43_index_memory, the address register and the memory transfers.
-/

namespace Sys2Proof.Machine

open Sys2Proof

/-! ### LD I, ADD I and LD F -/

section Answers

variable (x : Reg) (s : State)

theorem exec_ldI (nnn : BitVec 12) : exec (.ldI nnn) s = .next (s.setI (zextAddr nnn)).advance := rfl

theorem exec_addIVx : exec (.addIVx x) s = .next (s.setI (s.i + zextByte (s.getV x))).advance := rfl

theorem exec_ldFVx : exec (.ldFVx x) s = .next (s.setI
    (BitVec.ofNat 16 (s.params.fontBase.val + 5 * (lowNibble (s.getV x)).val))).advance := rfl

theorem exec_ldMemVx : exec (.ldMemVx x) s =
    .next ((storeRegs (x.val + 1) s).transferI x).advance := rfl

theorem exec_ldVxMem : exec (.ldVxMem x) s =
    .next ((loadRegs (x.val + 1) s).transferI x).advance := rfl

end Answers

theorem zextAddr_toNat (nnn : BitVec 12) : (zextAddr nnn).toNat = nnn.toNat :=
  BitVec.toNat_setWidth_of_le (by decide)

theorem zextByte_toNat (b : Byte) : (zextByte b).toNat = b.toNat :=
  BitVec.toNat_setWidth_of_le (by decide)

/-- The glyph address of LD F does not wrap, whatever the font base (R6, R87). -/
theorem glyphAddr_toNat (base : Fin 0x1B1) (b : Byte) :
    (BitVec.ofNat 16 (base.val + 5 * (lowNibble b).val)).toNat = base.val + 5 * (b.toNat % 16) := by
  have := base.isLt
  rw [lowNibble_val, BitVec.toNat_ofNat]
  exact Nat.mod_eq_of_lt (by omega)

/-- Settles O40: each instruction is one write of I (R85-R87). -/
theorem indexInstructionsWriteI : Obligations.IndexInstructionsWriteI := by
  intro nnn x s
  have hldI := exec_ldI s nnn
  have haddI := exec_addIVx x s
  have hldF := exec_ldFVx x s
  have hsum : (s.i + zextByte (s.getV x)).toNat = (s.i.toNat + (s.getV x).toNat) % 65536 := by
    rw [BitVec.toNat_add, zextByte_toNat]
  exact ⟨⟨Laws.RoundTrip.ldI nnn rfl, _, hldI, zextAddr_toNat nnn, rfl, exec_changesOnly hldI⟩,
    ⟨Laws.RoundTrip.addIVx x rfl, _, haddI, hsum, rfl, exec_changesOnly haddI⟩,
    ⟨Laws.RoundTrip.ldFVx x rfl, _, hldF, glyphAddr_toNat _ _, rfl, exec_changesOnly hldF⟩⟩

/-! ### LD B, Vx -/

theorem maskAddr_indexAddr_ne (s : State) {j k : Nat} (hjk : j ≠ k) (hj : j < memSize)
    (hk : k < memSize) : maskAddr (s.indexAddr j) ≠ maskAddr (s.indexAddr k) := by
  simp only [maskAddr, State.indexAddr, memSize] at *
  omega

/-- Three bytes stored at I, I + 1 and I + 2, as LD B stores its digits (R88). -/
def State.writeThree (s : State) (b₀ b₁ b₂ : Byte) : State :=
  ((s.writeByte (s.indexAddr 0) b₀).writeByte (s.indexAddr 1) b₁).writeByte (s.indexAddr 2) b₂

theorem State.readByte_writeThree {s : State} (h : s.memWf) (b₀ b₁ b₂ : Byte) (a : Nat) :
    (s.writeThree b₀ b₁ b₂).readByte a =
      if maskAddr a = maskAddr (s.indexAddr 2) then b₂
      else if maskAddr a = maskAddr (s.indexAddr 1) then b₁
      else if maskAddr a = maskAddr (s.indexAddr 0) then b₀
      else s.readByte a := by
  have h₁ := State.memWf_writeByte h (s.indexAddr 0) b₀
  have h₂ := State.memWf_writeByte h₁ (s.indexAddr 1) b₁
  rw [State.writeThree, State.readByte_writeByte h₂, State.readByte_writeByte h₁,
    State.readByte_writeByte h]

theorem exec_ldBVx (x : Reg) (s : State) : exec (.ldBVx x) s =
    .next (s.writeThree (hundreds (s.getV x)) (tens (s.getV x)) (ones (s.getV x))).advance := rfl

/-- A decimal digit of a byte is a byte. -/
theorem toNat_digit {d : Nat} {b : Byte} (h : d ≤ b.toNat) : (BitVec.ofNat 8 d).toNat = d := by
  rw [BitVec.toNat_ofNat]
  exact Nat.mod_eq_of_lt (h.trans_lt b.isLt)

/-- Settles O41: three stores at three different masked addresses (R88). -/
theorem ldBStoresTheDecimalDigits : Obligations.LdBStoresTheDecimalDigits := by
  intro x s hwf
  have hexec := exec_ldBVx x s
  have hread := State.readByte_writeThree hwf (hundreds (s.getV x)) (tens (s.getV x)) (ones (s.getV x))
  have h01 := maskAddr_indexAddr_ne s (j := 0) (k := 1) (by decide) (by decide) (by decide)
  have h02 := maskAddr_indexAddr_ne s (j := 0) (k := 2) (by decide) (by decide) (by decide)
  have h12 := maskAddr_indexAddr_ne s (j := 1) (k := 2) (by decide) (by decide) (by decide)
  refine ⟨Laws.RoundTrip.ldBVx x rfl, _, hexec, ?hundreds, ?tens, ?ones, fun a ha => ?other, rfl,
    exec_changesOnly hexec⟩
  case hundreds =>
    rw [State.readByte_advance, hread, if_neg h02, if_neg h01, if_pos rfl]
    exact toNat_digit (Nat.div_le_self _ _)
  case tens =>
    rw [State.readByte_advance, hread, if_neg h12, if_pos rfl]
    exact toNat_digit ((Nat.mod_le _ _).trans (Nat.div_le_self _ _))
  case ones =>
    rw [State.readByte_advance, hread, if_pos rfl]
    exact toNat_digit (Nat.mod_le _ _)
  case other =>
    rw [State.readByte_advance, hread, if_neg (ha 2 (by decide)), if_neg (ha 1 (by decide)),
      if_neg (ha 0 (by decide))]

/-! ### LD [I], Vx and LD Vx, [I] -/

@[simp] theorem State.getV_transferI (s : State) (x r : Reg) : (s.transferI x).getV r = s.getV r := by
  rw [State.transferI_eq, State.getV_setI]

@[simp] theorem State.readByte_transferI (s : State) (x : Reg) (a : Nat) :
    (s.transferI x).readByte a = s.readByte a := by
  rw [State.transferI_eq, State.readByte_setI]

/-- I after a transfer that itself left I and the parameters as they were. -/
theorem transferI_advance_i {s t : State} (x : Reg) (hi : t.i = s.i) (hp : t.params = s.params) :
    (t.transferI x).advance.i =
      if s.params.loadStoreIncrement = true then s.i + BitVec.ofNat 16 (x.val + 1) else s.i := by
  rw [State.advance_i, State.transferI_eq, State.setI_i, hi, hp]

/-- Settles O42: the stores of V0 to Vx are read back register by register, and no other byte moves
(R89). -/
theorem ldMemStoresTheRegisters : Obligations.LdMemStoresTheRegisters := by
  intro x s hwf
  have hexec := exec_ldMemVx x s
  have hstore := changesOnly_storeRegs s (x.val + 1)
  have hsize : x.val + 1 ≤ memSize := by have := x.isLt; simp only [memSize]; omega
  refine ⟨Laws.RoundTrip.ldMemVx x rfl, _, hexec, fun k hk => ?stored, fun a ha => ?other,
    transferI_advance_i x (hstore .i (by decide)) (hstore .params (by decide)), ?pc,
    (exec_changesOnly hexec).mono ?frame⟩
  case stored =>
    rw [State.readByte_advance, State.readByte_transferI,
      readByte_storeRegs hwf hsize (Nat.lt_succ_of_le hk), Fin.ofNat_val_eq_self]
  case other =>
    have hout (k : Nat) (hk : k < x.val + 1) : maskAddr a ≠ maskAddr (s.indexAddr k) :=
      ha ⟨k, by omega⟩ (Nat.le_of_lt_succ hk)
    rw [State.readByte_advance, State.readByte_transferI, readByte_storeRegs_other hwf hout]
  case pc => rw [State.advance_pc, State.transferI_pc, storeRegs_pc]
  case frame =>
    simp only [writtenBy]
    split <;> simp

/-- Settles O43: V0 to Vx are loaded register by register (R90). -/
theorem ldVxLoadsTheRegisters : Obligations.LdVxLoadsTheRegisters := by
  intro x s
  have hexec := exec_ldVxMem x s
  have hload := changesOnly_loadRegs s (x.val + 1)
  obtain ⟨-, hregs⟩ := loadRegs_spec (x.val + 1) x.isLt s
  refine ⟨Laws.RoundTrip.ldVxMem x rfl, _, hexec, fun k hk => ?loaded, fun k hk => ?kept,
    transferI_advance_i x (hload .i (by decide)) (hload .params (by decide)), ?pc,
    (exec_changesOnly hexec).mono ?frame⟩
  case loaded =>
    rw [State.getV_advance, State.getV_transferI, hregs, if_pos (Nat.lt_succ_of_le hk)]
  case kept =>
    have hout : ¬ k.val < x.val + 1 := Nat.not_lt_of_ge hk
    rw [State.getV_advance, State.getV_transferI, hregs, if_neg hout]
  case pc => rw [State.advance_pc, State.transferI_pc, loadRegs_pc]
  case frame =>
    simp only [writtenBy]
    split <;> simp

end Sys2Proof.Machine
end

section
/-!
Proofs: 44_display, the sprite a DRW draws. A draw toggles the pixels its set bits cover, each once;
the collision flag and the second draw follow from that.
-/

namespace Sys2Proof.Machine

open Sys2Proof

/-- Some set bit of the sprite at I, drawn at (Vx, Vy), lands on pixel (p, q) (R93). -/
def drwCovers (s : State) (x y : Reg) (n : Nat) (p : Fin 64) (q : Fin 32) : Prop :=
  ∃ r < n, ∃ c < 8, spriteBit s r c = true ∧ p = sprColumn s x c ∧ q = sprRow s y r

/-- Some set bit of that sprite lands on a pixel that is set (R94). -/
def drwCollides (s : State) (x y : Reg) (n : Nat) : Prop :=
  ∃ r < n, ∃ c < 8, spriteBit s r c = true ∧
    Display.pixel s.disp (sprColumn s x c) (sprRow s y r) = true

/-- The state that DRW answers. -/
def drawn (x y : Reg) (n : Fin 16) (s : State) : State :=
  ((s.setDisp (blit x y n.val s).disp).setV VF (flagByte (blit x y n.val s).hit)).advance

section Draw

variable (x y : Reg) (n : Fin 16) (s : State)

theorem exec_drw : exec (.drw x y n) s = .next (drawn x y n s) := rfl

variable {x y n s}

theorem pixel_drawn_of_covers {p : Fin 64} {q : Fin 32} (h : drwCovers s x y n.val p q) :
    Display.pixel (drawn x y n s).disp p q = !Display.pixel s.disp p q :=
  (pixel_blitRows s _ _ n.val (by omega) ⟨s.disp, false⟩ p q).1 h

theorem pixel_drawn_of_not_covers {p : Fin 64} {q : Fin 32} (h : ¬ drwCovers s x y n.val p q) :
    Display.pixel (drawn x y n s).disp p q = Display.pixel s.disp p q :=
  (pixel_blitRows s _ _ n.val (by omega) ⟨s.disp, false⟩ p q).2 h

theorem hit_blit : (blit x y n.val s).hit = true ↔ drwCollides s x y n.val := by
  rw [blit, hit_blitRows s _ _ n.val (by omega)]
  exact or_iff_right Bool.false_ne_true

theorem drawn_getV_VF : (drawn x y n s).getV VF = flagByte (blit x y n.val s).hit := by
  rw [drawn, State.getV_advance, State.getV_setV_self]

theorem drawn_VF_eq_one : (drawn x y n s).getV VF = 1 ↔ drwCollides s x y n.val := by
  rw [drawn_getV_VF, flagByte_eq_one, hit_blit]

theorem drawn_VF_eq_zero : (drawn x y n s).getV VF = 0 ↔ ¬ drwCollides s x y n.val := by
  rw [drawn_getV_VF, flagByte_eq_zero, ← hit_blit, Bool.not_eq_true]

theorem drawn_getV_of_ne {r : Reg} (h : r ≠ VF) : (drawn x y n s).getV r = s.getV r := by
  rw [drawn, State.getV_advance, State.getV_setV, if_neg h, State.getV_setDisp]

/-- Only a covered pixel can be unset by a draw, so unsetting and colliding are one thing (R94). -/
theorem somePixelUnset_drawn : SomePixelUnset s (drawn x y n s) ↔ drwCollides s x y n.val := by
  constructor
  · rintro ⟨p, q, hset, hunset⟩
    have hcov : drwCovers s x y n.val p q := by
      by_contra h
      rw [pixel_drawn_of_not_covers h, hset] at hunset
      cases hunset
    obtain ⟨r, hr, c, hc, hbit, rfl, rfl⟩ := hcov
    exact ⟨r, hr, c, hc, hbit, hset⟩
  · rintro ⟨r, hr, c, hc, hbit, hset⟩
    exact ⟨_, _, hset, by rw [pixel_drawn_of_covers ⟨r, hr, c, hc, hbit, rfl, rfl⟩, hset]; rfl⟩

theorem drawn_VF_outcome : ((drawn x y n s).getV VF = 1 ∧ SomePixelUnset s (drawn x y n s)) ∨
    ((drawn x y n s).getV VF = 0 ∧ ¬ SomePixelUnset s (drawn x y n s)) := by
  rw [somePixelUnset_drawn, drawn_VF_eq_one, drawn_VF_eq_zero, and_self, and_self]
  exact Classical.em _

end Draw

/-- Settles O45: the covered pixels are toggled and the others kept (R93), and VF says whether one was
unset. -/
theorem drwXorsTheSprite : Obligations.DrwXorsTheSprite := by
  intro x y n s
  refine ⟨Laws.RoundTrip.drw x y n rfl, _, exec_drw x y n s, ?toggled, ?kept, drawn_VF_outcome,
    fun r => drawn_getV_of_ne, rfl, exec_changesOnly (exec_drw x y n s)⟩
  case toggled =>
    intro r hr c hc hbit
    exact pixel_drawn_of_covers ⟨r, hr, c, hc, hbit, rfl, rfl⟩
  case kept =>
    intro p q hno
    refine pixel_drawn_of_not_covers ?_
    rintro ⟨r, hr, c, hc, hbit, hpq⟩
    exact hno r hr c hc hbit hpq

/-- Settles O46: VF is the `hit` of the draw, and a set pixel under a set bit is toggled (R94). -/
theorem collisionIsASetBitOnASetPixel : Obligations.CollisionIsASetBitOnASetPixel := by
  intro x y n s
  refine ⟨_, exec_drw x y n s, ?flag, drawn_VF_eq_one, ?unset⟩
  case flag =>
    rw [drawn_VF_eq_one, drawn_VF_eq_zero]
    exact (Classical.em _).symm
  case unset =>
    intro r hr c hc hbit hset
    rw [pixel_drawn_of_covers ⟨r, hr, c, hc, hbit, rfl, rfl⟩, hset]
    rfl

/-! ### The second draw -/

section Twice

variable {x y : Reg} {n : Fin 16} {s : State} (hx : x ≠ VF) (hy : y ≠ VF)

theorem spriteBit_drawn (r c : Nat) : spriteBit (drawn x y n s) r c = spriteBit s r c := rfl

include hx in
theorem sprColumn_drawn (c : Nat) : sprColumn (drawn x y n s) x c = sprColumn s x c := by
  rw [sprColumn, sprColumn, drawn_getV_of_ne hx]

include hy in
theorem sprRow_drawn (r : Nat) : sprRow (drawn x y n s) y r = sprRow s y r := by
  rw [sprRow, sprRow, drawn_getV_of_ne hy]

include hx hy in
/-- The second draw lands where the first did: the first wrote no coordinate, no I and no memory. -/
theorem drwCovers_drawn (p : Fin 64) (q : Fin 32) :
    drwCovers (drawn x y n s) x y n.val p q ↔ drwCovers s x y n.val p q := by
  simp only [drwCovers, spriteBit_drawn, sprColumn_drawn hx, sprRow_drawn hy]

include hx hy in
theorem disp_drawn_drawn : (drawn x y n (drawn x y n s)).disp = s.disp := by
  refine Display.ext fun p q => ?_
  by_cases h : drwCovers s x y n.val p q
  · rw [pixel_drawn_of_covers ((drwCovers_drawn hx hy p q).mpr h), pixel_drawn_of_covers h,
      Bool.not_not]
  · rw [pixel_drawn_of_not_covers fun h' => h ((drwCovers_drawn hx hy p q).mp h'),
      pixel_drawn_of_not_covers h]

include hx hy in
/-- After a draw without collision every covered pixel is set, so any set bit collides. -/
theorem drwCollides_drawn (hno : ¬ drwCollides s x y n.val) :
    drwCollides (drawn x y n s) x y n.val ↔ ∃ r < n.val, ∃ c < 8, spriteBit s r c = true := by
  constructor
  · rintro ⟨r, hr, c, hc, hbit, -⟩
    exact ⟨r, hr, c, hc, hbit⟩
  · rintro ⟨r, hr, c, hc, hbit⟩
    have hunset : Display.pixel s.disp (sprColumn s x c) (sprRow s y r) = false :=
      Bool.eq_false_of_not_eq_true fun hset => hno ⟨r, hr, c, hc, hbit, hset⟩
    refine ⟨r, hr, c, hc, hbit, ?_⟩
    rw [sprColumn_drawn hx, sprRow_drawn hy, pixel_drawn_of_covers ⟨r, hr, c, hc, hbit, rfl, rfl⟩,
      hunset]
    rfl

end Twice

/-- Settles O47: both draws cover the same pixels, so each is toggled twice; where the first draw found
no set pixel, the second finds every covered one set. -/
theorem drawingTwiceRestoresTheDisplay : Obligations.DrawingTwiceRestoresTheDisplay := by
  intro x y n s hx hy
  refine ⟨_, _, exec_drw x y n s, exec_drw x y n _, disp_drawn_drawn hx hy, fun hzero => ?_⟩
  rw [drawn_VF_eq_one, drwCollides_drawn hx hy (drawn_VF_eq_zero.mp hzero)]

end Sys2Proof.Machine
end

section
/-!
Proofs: 45_timers_input_random, and the timer unit of 60_exceptions.
-/

namespace Sys2Proof.Machine

open Sys2Proof

/-! ### LD Vx, DT; LD DT, Vx; LD ST, Vx; LD Vx, K; RND -/

section Answers

variable (x : Reg) (kk : Byte) (s : State)

theorem exec_ldVxDt : exec (.ldVxDt x) s = .next (s.setV x s.dt).advance := rfl

theorem exec_ldDtVx : exec (.ldDtVx x) s = .next (s.setDt (s.getV x)).advance := rfl

theorem exec_ldStVx : exec (.ldStVx x) s = .next (s.setSt (s.getV x)).advance := rfl

theorem exec_ldVxK : exec (.ldVxK x) s = .next (s.setMode (.awaitingKey x s.keys)) := rfl

theorem exec_rnd : exec (.rnd x kk) s = .next (rndWith (Config.rand s.draws) x kk s.countDraw) := rfl

end Answers

/-- Settles O48: one write of Vx, DT or ST each (R97-R99). -/
theorem timerInstructionsMoveTheTimers : Obligations.TimerInstructionsMoveTheTimers := fun x s =>
  ⟨⟨Laws.RoundTrip.ldVxDt x rfl, _, exec_ldVxDt x s, fun r => getV_setV_advance s x r _, rfl,
      exec_changesOnly (exec_ldVxDt x s)⟩,
    ⟨Laws.RoundTrip.ldDtVx x rfl, _, exec_ldDtVx x s, rfl, rfl, exec_changesOnly (exec_ldDtVx x s)⟩,
    ⟨Laws.RoundTrip.ldStVx x rfl, _, exec_ldStVx x s, rfl, rfl, exec_changesOnly (exec_ldStVx x s)⟩⟩

/-- Settles O49: the instruction is one write of `Mode` (R102). -/
theorem ldKEntersTheKeyWait : Obligations.LdKEntersTheKeyWait := fun x s =>
  ⟨Laws.RoundTrip.ldVxK x rfl, _, exec_ldVxK x s, rfl, changesOnly_setMode s _⟩

/-- Settles O51: one write of Vx after the draw is counted (R104). -/
theorem rndMasksTheDrawnByte : Obligations.RndMasksTheDrawnByte := by
  intro x kk s
  have hexec := exec_rnd x kk s
  have hregs (b : Byte) (t : State) (r : Reg) :
      (rndWith b x kk t).getV r = if r = x then b &&& kk else t.getV r :=
    getV_setV_advance t x r (b &&& kk)
  exact ⟨Laws.RoundTrip.rnd x kk rfl, ⟨_, hexec, hregs _ s.countDraw, rfl, rfl,
    exec_changesOnly hexec⟩, fun b => hregs b s⟩

/-! ### The key wait -/

/-- A key that is down and was down in the snapshot is no new key (D19). -/
theorem getLsbD_newKeys (s : State) (last : KeySet) (k : Fin 16) :
    (s.newKeys last).getLsbD k.val = (s.keys.getLsbD k.val && !last.getLsbD k.val) := by
  simp [State.newKeys]

theorem keyWaitStep_of_none {x : Reg} {last : KeySet} {s : State} (h : s.newKeys last = 0) :
    keyWaitStep x last s = .next (s.setMode (.awaitingKey x s.keys)) := by
  rw [keyWaitStep, (lowestKey_eq_none _).mpr h]

theorem keyWaitStep_of_some {x : Reg} {last : KeySet} {s : State} (h : s.newKeys last ≠ 0) :
    ∃ k : Fin 16, (s.newKeys last).getLsbD k.val = true ∧
      (∀ j < k, (s.newKeys last).getLsbD j.val = false) ∧
      keyWaitStep x last s = .next ((s.setV x (keyByte k)).advance.setMode .running) :=
  (keyWaitStep_cases x last s).resolve_left fun hnone => h hnone.1

theorem changesOnly_keyWaitEnd (s : State) (x : Reg) (b : Byte) :
    ChangesOnly [.v, .pc, .mode] s ((s.setV x b).advance.setMode .running) :=
  (changesOnly_setV s x b).advance.trans (changesOnly_setMode _ _)

/-- Two keys that are both the lowest of a set are one. -/
theorem lowest_unique {new : KeySet} {j k : Fin 16} (hj : new.getLsbD j.val = true)
    (hjlow : ∀ i < j, new.getLsbD i.val = false) (hk : new.getLsbD k.val = true)
    (hklow : ∀ i < k, new.getLsbD i.val = false) : j = k := by
  rcases lt_trichotomy j k with h | h | h
  · exact absurd hj (by rw [hklow j h]; decide)
  · exact h
  · exact absurd hk (by rw [hjlow k h]; decide)

/-- Settles O50: without a new key the step writes the snapshot; with one it ends on the lowest, which
is the given one (R103). -/
theorem keyWaitEndsOnTheLowestNewKey : Obligations.KeyWaitEndsOnTheLowestNewKey := by
  intro x last s hmode
  rw [step_of_awaiting hmode]
  refine ⟨fun hheld => ?none, fun k hdown hup hlow => ?some⟩
  case none =>
    have hnone : s.newKeys last = 0 := by
      refine BitVec.eq_of_getLsbD_eq fun j hj => ?_
      have hbit := hheld ⟨j, hj⟩
      rw [getLsbD_newKeys s last ⟨j, hj⟩]
      simpa using hbit
    exact ⟨_, keyWaitStep_of_none hnone, rfl, changesOnly_setMode s _⟩
  case some =>
    have hk : (s.newKeys last).getLsbD k.val = true := by
      rw [getLsbD_newKeys, hdown, hup]
      rfl
    have hklow (j : Fin 16) (hj : j < k) : (s.newKeys last).getLsbD j.val = false := by
      have hbit := hlow j hj
      rw [getLsbD_newKeys]
      simpa using hbit
    have hnew : s.newKeys last ≠ 0 := fun h => by simp [h] at hk
    obtain ⟨j, hj, hjlow, hstep⟩ := keyWaitStep_of_some (x := x) hnew
    obtain rfl : j = k := lowest_unique hj hjlow hk hklow
    exact ⟨_, hstep, rfl, rfl, fun r => getV_setV_advance s x r _, changesOnly_keyWaitEnd s x _⟩

/-! ### The tick -/

theorem changesOnly_tick (s : State) : ChangesOnly [.dt, .st] s (tick s) := by
  by_cases h : ∃ f, s.mode = .halted f
  · obtain ⟨f, hf⟩ := h
    rw [tick_of_halted hf]
    exact (changesOnly_refl s).mono (by simp)
  · rw [tick_of_not_halted (not_exists.mp h)]
    exact (changesOnly_setDt s _).trans (changesOnly_setSt _ _)

section Tick

variable {s : State} (h : ∀ f, s.mode ≠ .halted f)

include h in
theorem tick_dt : (tick s).dt.toNat = s.dt.toNat - 1 := by
  rw [tick_of_not_halted h]
  exact countDown_toNat s.dt

include h in
theorem tick_st : (tick s).st.toNat = s.st.toNat - 1 := by
  rw [tick_of_not_halted h]
  exact countDown_toNat s.st

end Tick

/-- Settles O52: the tick counts both timers down outside `Halted` and does nothing in it (R116). -/
theorem tickCountsTheTimersDown : Obligations.TickCountsTheTimersDown := fun s =>
  ⟨fun _ => tick_of_halted, fun h => ⟨tick_dt h, tick_st h, changesOnly_tick s⟩⟩

/-- Settles O53: one more tick takes one more from each timer, since no tick writes `Mode` (R117). -/
theorem timersReachZeroAfterTheirValueInTicks :
    Obligations.TimersReachZeroAfterTheirValueInTicks := by
  intro n s h
  induction n with
  | zero => exact ⟨rfl, rfl, (changesOnly_refl s).mono (by simp)⟩
  | succ n ih =>
    obtain ⟨hdt, hst, hframe⟩ := ih
    have hmode : (tick^[n] s).mode = s.mode := hframe .mode (by decide)
    have hrun : ∀ f, (tick^[n] s).mode ≠ .halted f := by rwa [hmode]
    rw [Function.iterate_succ_apply', tick_dt hrun, tick_st hrun, hdt, hst]
    exact ⟨Nat.sub_sub _ _ _, Nat.sub_sub _ _ _, (hframe.trans (changesOnly_tick _)).mono (by simp)⟩

end Sys2Proof.Machine
end

section
/-!
Proofs: the cycle of 30_encoding R59, over all instructions: the next PC, the flag, the mode, the fatal
faults, and which instructions write a component.
-/

namespace Sys2Proof.Machine

open Sys2Proof

/-! ### The flag -/

theorem exec_getV_of_not_written {i : Instr} {s t : State} (h : exec i s = .next t)
    (hv : .v ∉ writtenBy i s) (r : Reg) : t.getV r = s.getV r := exec_changesOnly h .v hv r

theorem exec_vfOutcome {i : Instr} {s t : State} (h : exec i s = .next t) : VfOutcome i s t := by
  cases i with
  | addImm x kk => cases h; exact (getV_resultFlag_VF s _ _).trans (carryFlag_eq _ _)
  | addReg x y => cases h; exact (getV_resultFlag_VF s _ _).trans (carryFlag_eq _ _)
  | sub x y | subn x y => cases h; exact (getV_resultFlag_VF s _ _).trans (notBorrowFlag_eq _ _)
  | shr x y | shl x y => cases h; exact getV_resultFlag_VF s _ _
  | drw x y n => cases h; exact drawn_VF_outcome
  | ldImm x kk | ldReg x y | ldVxDt x | rnd x kk =>
    cases h
    exact fun hx => (getV_setV_advance _ x VF _).trans (if_neg hx.symm)
  | orReg x y | andReg x y | xorReg x y =>
    cases h
    intro hx hkeep
    rw [getV_logic, if_neg (by simp [hkeep]), if_neg hx.symm]
  | ldVxMem x =>
    cases h
    intro hx
    have hVF : VF.val = 15 := rfl
    have hout : ¬ VF.val < x.val + 1 := by
      have : x.val ≠ VF.val := fun he => hx (Fin.ext he)
      omega
    rw [State.getV_advance, State.getV_transferI, (loadRegs_spec _ x.isLt s).2, if_neg hout]
  | ret | call nnn | ldMemVx x =>
    exact exec_getV_of_not_written h (by simp only [writtenBy]; split <;> decide) VF
  | _ => exact exec_getV_of_not_written h (by simp [writtenBy]) VF

/-- Settles O9: one row of R16 per instruction, and the key wait, which writes Vx alone. -/
theorem vfFollowsTheFlagTable : Obligations.VfFollowsTheFlagTable := by
  refine ⟨fun i s t => exec_vfOutcome, fun x last s t hx hstep => ?_⟩
  rcases keyWaitStep_cases x last s with ⟨-, hwait⟩ | ⟨k, -, -, hend⟩
  · cases hwait.symm.trans hstep
    rfl
  · cases hend.symm.trans hstep
    exact (getV_setV_advance s x VF _).trans (if_neg hx.symm)

/-! ### The step, its result and its diagnostic, mode by mode -/

theorem cycleResult_of_halted {s : State} {f : FatalFault} (h : s.mode = .halted f) :
    cycleResult s = .halted f := by
  simp only [cycleResult, h]

theorem cycleResult_of_awaiting {s : State} {x : Reg} {last : KeySet}
    (h : s.mode = .awaitingKey x last) : cycleResult s = .ok := by
  simp only [cycleResult, h]

theorem cycleResult_of_unknown {s : State} {w : Word} (h : s.mode = .running)
    (hd : decode s.fetch = .unknown w) : cycleResult s = .errUnknownOpcode s.fetch s.pc := by
  rw [decode_unknown hd] at hd
  simp only [cycleResult, h, hd]

theorem unknownOpcodeStep_of_nop {s : State} (h : s.params.unknownPolicy = .nopDiagnostic) :
    unknownOpcodeStep s = .next s.advance := by
  simp only [unknownOpcodeStep, h]

theorem unknownOpcodeStep_of_halt {s : State} (h : s.params.unknownPolicy = .halt) :
    unknownOpcodeStep s = .next (s.setMode (.halted .unknownOpcode)) := by
  simp only [unknownOpcodeStep, h, haltWith]

/-- Settles O5: the two bytes are the fetched word (R37), and a running machine runs what it decodes
to (R59). -/
theorem stepRunsTheDecodedInstruction : Obligations.StepRunsTheDecodedInstruction := by
  intro s hi lo i hrun hhi hlo hdecode
  have hfetch : s.fetch = wordOfBytes hi lo := by rw [State.fetch, hhi, hlo]
  exact step_of_instr hrun (hfetch ▸ hdecode)

/-- Settles O7: a halt and a key wait answer, an unknown word answers under both policies, and so does
every instruction. -/
theorem everyStepAnswersANextState : Obligations.EveryStepAnswersANextState := by
  intro s
  rcases hm : s.mode with _ | ⟨x, last⟩ | f
  · rcases hd : decode s.fetch with i | w
    · rw [step_of_instr hm hd]
      exact exec_answers i s
    · rw [step_of_unknown hm hd]
      rcases unknownOpcodeStep_cases s with ⟨-, h⟩ | ⟨-, h⟩ <;> exact ⟨_, h⟩
  · rw [step_of_awaiting hm]
    rcases keyWaitStep_cases x last s with ⟨-, h⟩ | ⟨_, -, -, h⟩ <;> exact ⟨_, h⟩
  · exact ⟨s, step_of_halted hm⟩

/-- Settles O8: the table of R18 is `exec_pc`; the key wait and an unknown word move PC by the one
advance in their answer. -/
theorem nextPcFollowsTheTable : Obligations.NextPcFollowsTheTable := by
  refine ⟨rfl, fun s => rfl, fun i s hj => ?table, fun s x last hmode => ?keyWait,
    fun s w hrun hunknown hpolicy => ?unknown⟩
  case table =>
    obtain ⟨t, ht⟩ := exec_answers i s
    refine ⟨t, ht, exec_pc ht hj, ?_, ?_, ?_⟩
    · rintro nnn rfl hroom
      rw [exec_call_stackAt ht hroom, if_pos rfl]
    · rintro nnn rfl hfull
      cases (exec_call_of_full nnn hfull).symm.trans ht
      rfl
    · rintro rfl hempty
      cases (exec_ret_of_empty hempty).symm.trans ht
      rfl
  case keyWait =>
    rw [step_of_awaiting hmode]
    by_cases hnone : s.newKeys last = 0
    · exact ⟨_, keyWaitStep_of_none hnone, (if_pos hnone).symm⟩
    · obtain ⟨k, -, -, hstep⟩ := keyWaitStep_of_some (x := x) hnone
      exact ⟨_, hstep, (if_neg hnone).symm⟩
  case unknown =>
    rw [step_of_unknown hrun hunknown]
    exact ⟨_, unknownOpcodeStep_of_nop hpolicy, rfl⟩

/-! ### The mode -/

/-- The mode an instruction leaves: only a full CALL, an empty RET and LD Vx, K write it (R24). -/
def nextMode (i : Instr) (s : State) : Mode :=
  match i with
  | .call _ => if s.sp = 16 then .halted .stackOverflow else s.mode
  | .ret => if s.sp = 0 then .halted .stackUnderflow else s.mode
  | .ldVxK x => .awaitingKey x s.keys
  | _ => s.mode

theorem exec_mode {i : Instr} {s t : State} (h : exec i s = .next t) : t.mode = nextMode i s := by
  cases i with
  | call nnn =>
    by_cases hsp : s.sp = 16
    · rw [exec_call_of_full nnn hsp] at h
      cases h
      exact (if_pos hsp).symm
    · rw [exec_call_of_room nnn hsp] at h
      cases h
      exact (if_neg hsp).symm
  | ret =>
    by_cases hsp : s.sp = 0
    · rw [exec_ret_of_empty hsp] at h
      cases h
      exact (if_pos hsp).symm
    · rw [exec_ret_of_nonempty hsp] at h
      cases h
      exact (if_neg hsp).symm
  | ldVxK x => cases h; rfl
  | ldMemVx x | ldVxMem x =>
    exact exec_changesOnly h .mode (by simp only [writtenBy]; split <;> decide)
  | _ => exact exec_changesOnly h .mode (by simp [writtenBy])

section Running

variable {i : Instr} {s t : State} (hrun : s.mode = .running) (h : exec i s = .next t)

include hrun in
theorem nextMode_eq_halted {f : FatalFault} : nextMode i s = .halted f ↔
    (f = .stackOverflow ∧ s.sp = 16 ∧ ∃ nnn, i = .call nnn) ∨
    (f = .stackUnderflow ∧ s.sp = 0 ∧ i = .ret) := by
  cases i with
  | call nnn => by_cases hsp : s.sp = 16 <;> simp [nextMode, hrun, hsp, eq_comm]
  | ret => by_cases hsp : s.sp = 0 <;> simp [nextMode, hrun, hsp, eq_comm]
  | _ => simp [nextMode, hrun]

include hrun in
theorem nextMode_eq_awaiting {x : Reg} {last : KeySet} :
    nextMode i s = .awaitingKey x last ↔ i = .ldVxK x ∧ last = s.keys := by
  cases i with
  | call nnn | ret =>
    simp only [nextMode, hrun]
    split <;> simp
  | ldVxK y => simp [nextMode, eq_comm]
  | _ => simp [nextMode, hrun]

include hrun h in
/-- A fatal instruction is CALL on a full stack or RET on an empty one, and writes `Mode` alone. -/
theorem exec_halted {f : FatalFault} (hf : t.mode = .halted f) : t = s.setMode (.halted f) ∧
    ((f = .stackOverflow ∧ s.sp = 16 ∧ ∃ nnn, i = .call nnn) ∨
      (f = .stackUnderflow ∧ s.sp = 0 ∧ i = .ret)) := by
  have hcases := (nextMode_eq_halted hrun).mp ((exec_mode h).symm.trans hf)
  refine ⟨?_, hcases⟩
  rcases hcases with ⟨rfl, hsp, nnn, rfl⟩ | ⟨rfl, hsp, rfl⟩
  · cases (exec_call_of_full nnn hsp).symm.trans h
    rfl
  · cases (exec_ret_of_empty hsp).symm.trans h
    rfl

end Running

/-- Settles O6: each mode has its step and its result (R59); an instruction's result is read off the
mode it leaves. -/
theorem cycleFollowsTheMode : Obligations.CycleFollowsTheMode := by
  refine fun s => ⟨fun f hm => ⟨step_of_halted hm, cycleResult_of_halted hm⟩,
    fun x last hm => ⟨step_of_awaiting hm, cycleResult_of_awaiting hm⟩,
    fun hrun => ⟨fun w hd => ?unknown, fun i hd => ?instr⟩⟩
  case unknown =>
    have hstep := step_of_unknown hrun hd
    exact ⟨hstep, cycleResult_of_unknown hrun hd,
      fun hpolicy => ⟨_, hstep.trans (unknownOpcodeStep_of_halt hpolicy), rfl⟩⟩
  case instr =>
    obtain ⟨t, ht⟩ := exec_answers i s
    have hresult : cycleResult s = instrResult (.next t) := ht ▸ cycleResult_of_instr hrun hd
    refine ⟨t, step_of_instr hrun hd, ht, ?_⟩
    rcases hm : t.mode with _ | ⟨x, last⟩ | f
    · exact .inr (.inr ⟨by simp, by simp only [hresult, instrResult, hm]⟩)
    · exact .inr (.inr ⟨by simp, by simp only [hresult, instrResult, hm]⟩)
    · obtain ⟨-, ⟨rfl, -⟩ | ⟨rfl, -⟩⟩ := exec_halted hrun ht hm
      · exact .inl ⟨rfl, by simp only [hresult, instrResult, hm]⟩
      · exact .inr (.inl ⟨rfl, by simp only [hresult, instrResult, hm]⟩)

/-- Settles O31: the word and its address are the cycle's result under both policies; the policy picks
the diagnostic and the answer (R106). -/
theorem unknownOpcodeFollowsThePolicy : Obligations.UnknownOpcodeFollowsThePolicy := by
  intro s w hrun hd
  have hstep := step_of_unknown hrun hd
  have hself := decode_unknown hd ▸ hd
  refine ⟨cycleResult_of_unknown hrun hd, fun hpolicy => ⟨?_, s.advance, ?_, rfl,
    changesOnly_advance s⟩, fun hpolicy => ⟨?_, ?_⟩⟩
  · simp only [cycleDiagnostic, hrun, hself, hpolicy]
  · rw [hstep, unknownOpcodeStep_of_nop hpolicy]
  · simp only [cycleDiagnostic, hrun, hself, hpolicy]
  · exact hstep.trans (unknownOpcodeStep_of_halt hpolicy)

/-- Settles O16: a running cycle is fatal by an unknown word under policy Halt or by an instruction;
either answer is `haltWith` (R111), and the result names the fault. -/
theorem fatalFaultChangesOnlyTheMode : Obligations.FatalFaultChangesOnlyTheMode := by
  intro s t f hrun hstep hf
  rcases hd : decode s.fetch with i | w
  · rw [step_of_instr hrun hd] at hstep
    have hresult : cycleResult s = instrResult (.next t) := hstep ▸ cycleResult_of_instr hrun hd
    obtain ⟨ht, ⟨rfl, -⟩ | ⟨rfl, -⟩⟩ := exec_halted hrun hstep hf
    · exact ⟨ht, by simp only [hresult, instrResult, hf]⟩
    · exact ⟨ht, by simp only [hresult, instrResult, hf]⟩
  · rw [step_of_unknown hrun hd] at hstep
    rcases unknownOpcodeStep_cases s with ⟨-, hnop⟩ | ⟨-, hhalt⟩
    · cases hnop.symm.trans hstep
      cases hrun.symm.trans hf
    · cases hhalt.symm.trans hstep
      cases hf
      exact ⟨rfl, cycleResult_of_unknown hrun hd⟩

theorem step_mode_of_instr {i : Instr} {s t : State} (hrun : s.mode = .running)
    (hd : decode s.fetch = .instr i) (h : step s = .next t) : t.mode = nextMode i s :=
  exec_mode ((step_of_instr hrun hd).symm.trans h)

/-- The mode after a running cycle on an unknown word (R106). -/
theorem step_mode_of_unknown {s t : State} {w : Word} (hrun : s.mode = .running)
    (hd : decode s.fetch = .unknown w) (h : step s = .next t) :
    t.mode = if s.params.unknownPolicy = .halt then .halted .unknownOpcode else .running := by
  rw [step_of_unknown hrun hd] at h
  rcases unknownOpcodeStep_cases s with ⟨hpolicy, hnop⟩ | ⟨hpolicy, hhalt⟩
  · cases hnop.symm.trans h
    rw [hpolicy, if_neg (by decide)]
    exact hrun
  · cases hhalt.symm.trans h
    rw [hpolicy, if_pos rfl]
    rfl

/-- Settles O15: the mode after a running cycle is `nextMode` of the instruction or that of the unknown
word; a key wait looks at its new keys, and a halt stays (R24, R113). -/
theorem modeChangesOnlyAsListed : Obligations.ModeChangesOnlyAsListed := by
  intro s t hstep
  refine ⟨fun hrun => ?running, fun x last hmode => ?awaiting, fun f hmode => ?halted⟩
  case running =>
    rcases hd : decode s.fetch with i | w
    · rw [step_mode_of_instr hrun hd hstep]
      refine ⟨?_, fun x last => ?_⟩
      · simp only [nextMode_eq_halted hrun, Decoded.instr.injEq, reduceCtorEq, false_and, or_false]
        constructor
        · rintro ⟨f, ⟨-, hsp, nnn, hi⟩ | ⟨-, hsp, hi⟩⟩
          · exact .inl ⟨nnn, hi, hsp⟩
          · exact .inr ⟨hi, hsp⟩
        · rintro (⟨nnn, hi, hsp⟩ | ⟨hi, hsp⟩)
          · exact ⟨_, .inl ⟨rfl, hsp, nnn, hi⟩⟩
          · exact ⟨_, .inr ⟨rfl, hsp, hi⟩⟩
      · rw [nextMode_eq_awaiting hrun, Decoded.instr.injEq]
    · obtain rfl := decode_unknown hd
      rw [step_mode_of_unknown hrun hd hstep]
      split_ifs with hpolicy <;> simp [hpolicy]
  case awaiting =>
    rw [step_of_awaiting hmode] at hstep
    refine ⟨fun hnew => ?_, fun hnone => ?_⟩
    · obtain ⟨k, -, -, hend⟩ := keyWaitStep_of_some (x := x) (s := s) (last := last) hnew
      cases hend.symm.trans hstep
      rfl
    · cases (keyWaitStep_of_none (x := x) (s := s) (last := last) hnone).symm.trans hstep
      rfl
  case halted =>
    cases (step_of_halted hmode).symm.trans hstep
    exact hmode

/-! ### Which instructions write a component -/

theorem changesOnly_keyWaitStep {x : Reg} {last : KeySet} {s t : State}
    (h : keyWaitStep x last s = .next t) : ChangesOnly [.v, .pc, .mode] s t := by
  rcases keyWaitStep_cases x last s with ⟨-, hwait⟩ | ⟨k, -, -, hend⟩
  · cases hwait.symm.trans h
    exact (changesOnly_setMode s _).mono (by simp)
  · cases hend.symm.trans h
    exact changesOnly_keyWaitEnd s x _

theorem changesOnly_unknownOpcodeStep {s t : State} (h : unknownOpcodeStep s = .next t) :
    ChangesOnly [.pc, .mode] s t := by
  rcases unknownOpcodeStep_cases s with ⟨-, hnop⟩ | ⟨-, hhalt⟩
  · cases hnop.symm.trans h
    exact (changesOnly_advance s).mono (by simp)
  · cases hhalt.symm.trans h
    exact (changesOnly_setMode s _).mono (by simp)

/-- A cycle without an instruction writes at most V, PC and `Mode`; any other component changes by an
instruction that writes it. -/
theorem step_changes {c : Component} {s t : State} (h : step s = .next t)
    (hc : c ∉ [.v, .pc, .mode]) (hchange : ¬ Unchanged c s t) :
    s.mode = .running ∧ ∃ i, decode s.fetch = .instr i ∧ c ∈ writtenBy i s := by
  rcases step_cases h with
    ⟨f, -, rfl⟩ | ⟨x, last, -, hkey⟩ | ⟨hrun, ⟨w, -, hunknown⟩ | ⟨i, hd, hexec⟩⟩
  · exact absurd (changesOnly_refl t c (by simp)) hchange
  · exact absurd (changesOnly_keyWaitStep hkey c hc) hchange
  · exact absurd ((changesOnly_unknownOpcodeStep hunknown).mono (by simp) c hc) hchange
  · exact ⟨hrun, i, hd, by_contra fun hnot => hchange (exec_changesOnly hexec c hnot)⟩

/-- `writtenBy` read by component: which instructions write the display (R96), the stack (R21), its
depth (R22), the timers (R23), I (R17) and memory (R34); none writes the keys or the parameters. -/
structure Writers (i : Instr) (s : State) : Prop where
  disp   : .disp ∈ writtenBy i s → i = .cls ∨ ∃ x y n, i = .drw x y n
  stack  : .stack ∈ writtenBy i s → ∃ nnn, i = .call nnn
  sp     : .sp ∈ writtenBy i s → i = .ret ∨ ∃ nnn, i = .call nnn
  dt     : .dt ∈ writtenBy i s → ∃ x, i = .ldDtVx x
  st     : .st ∈ writtenBy i s → ∃ x, i = .ldStVx x
  index  : .i ∈ writtenBy i s → (∃ nnn, i = .ldI nnn) ∨ (∃ x, i = .addIVx x ∨ i = .ldFVx x) ∨
    (s.params.loadStoreIncrement = true ∧ ∃ x, i = .ldMemVx x ∨ i = .ldVxMem x)
  mem    : .mem ∈ writtenBy i s → ∃ x, i = .ldBVx x ∨ i = .ldMemVx x
  keys   : .keys ∉ writtenBy i s
  params : .params ∉ writtenBy i s

theorem writers (i : Instr) (s : State) : Writers i s := by
  cases i with
  | ret | call nnn | ldMemVx x | ldVxMem x =>
    constructor <;> simp only [writtenBy] <;> split <;> simp [*]
  | _ => constructor <;> simp [writtenBy]

theorem stack_eq_of_unchanged {s t : State} (h : Unchanged .stack s t) : t.stack = s.stack := by
  refine Vector.ext fun j hj => ?_
  simpa [State.stackAt, hj] using h j

/-- Settles O18: a display with the same pixels is the same, so a changed one has an instruction that
writes it (R96). -/
theorem onlyClsAndDrwWriteTheDisplay : Obligations.OnlyClsAndDrwWriteTheDisplay := by
  intro s t hstep hne
  obtain ⟨hrun, i, hd, hw⟩ := step_changes (c := .disp) hstep (by decide) fun h => hne (Display.ext h)
  simpa [hrun, hd] using (writers i s).disp hw

/-- Settles O20: likewise for the stack and its depth (R21, R22). -/
theorem onlyCallAndRetTouchTheStack : Obligations.OnlyCallAndRetTouchTheStack := by
  refine fun s t hstep => ⟨fun hne => ?stack, fun hne => ?sp⟩
  case stack =>
    obtain ⟨hrun, i, hd, hw⟩ := step_changes (c := .stack) hstep (by decide) fun h =>
      hne (stack_eq_of_unchanged h)
    simpa [hrun, hd] using (writers i s).stack hw
  case sp =>
    obtain ⟨hrun, i, hd, hw⟩ := step_changes (c := .sp) hstep (by decide) hne
    simpa [hrun, hd] using (writers i s).sp hw

/-- Settles O21: likewise for the timers and I (R17, R23). -/
theorem timersAndIndexHaveTheirWritersOnly : Obligations.TimersAndIndexHaveTheirWritersOnly := by
  refine fun s t hstep => ⟨fun hne => ?dt, fun hne => ?st, fun hne => ?i⟩
  case dt =>
    obtain ⟨hrun, i, hd, hw⟩ := step_changes (c := .dt) hstep (by decide) hne
    simpa [hrun, hd] using (writers i s).dt hw
  case st =>
    obtain ⟨hrun, i, hd, hw⟩ := step_changes (c := .st) hstep (by decide) hne
    simpa [hrun, hd] using (writers i s).st hw
  case i =>
    obtain ⟨hrun, i, hd, hw⟩ := step_changes (c := .i) hstep (by decide) hne
    simpa [hrun, hd] using (writers i s).index hw

/-- Settles O22: no instruction lists the keys or the parameters among what it writes. -/
theorem noCycleWritesKeysOrParameters : Obligations.NoCycleWritesKeysOrParameters := by
  refine fun s t hstep => ⟨by_contra fun hne => ?keys, by_contra fun hne => ?params⟩
  case keys =>
    obtain ⟨-, i, -, hw⟩ := step_changes (c := .keys) hstep (by decide) hne
    exact (writers i s).keys hw
  case params =>
    obtain ⟨-, i, -, hw⟩ := step_changes (c := .params) hstep (by decide) hne
    exact (writers i s).params hw

/-! ### Memory as a list -/

@[simp] theorem State.logicVf_mem (s : State) : s.logicVf.mem = s.mem := by
  rw [State.logicVf_eq]
  split <;> rfl

@[simp] theorem State.transferI_mem (s : State) (x : Reg) : (s.transferI x).mem = s.mem := by
  rw [State.transferI_eq, State.setI_mem]

theorem loadRegs_mem {n : Nat} (hn : n ≤ 16) (s : State) : (loadRegs n s).mem = s.mem := by
  obtain ⟨⟨v, hv⟩, -⟩ := loadRegs_spec n hn s
  rw [hv]

theorem skipIf_mem (s : State) (c : Bool) : (s.skipIf c).mem = s.mem := by
  rw [State.skipIf_eq, State.setPc_mem]

/-- Without a write of memory its list is kept as data, not only byte by byte. -/
theorem exec_mem {i : Instr} {s t : State} (h : exec i s = .next t) (hw : .mem ∉ writtenBy i s) :
    t.mem = s.mem := by
  cases i with
  | ret =>
    by_cases hsp : s.sp = 0
    · cases (exec_ret_of_empty hsp).symm.trans h
      rfl
    · cases (exec_ret_of_nonempty hsp).symm.trans h
      rfl
  | call nnn =>
    by_cases hsp : s.sp = 16
    · cases (exec_call_of_full nnn hsp).symm.trans h
      rfl
    · cases (exec_call_of_room nnn hsp).symm.trans h
      rfl
  | seImm x kk | sneImm x kk | seReg x y | sneReg x y | skp x | sknp x => cases h; exact skipIf_mem s _
  | orReg x y | andReg x y | xorReg x y => cases h; exact State.logicVf_mem _
  | ldVxMem x => cases h; exact (State.transferI_mem _ x).trans (loadRegs_mem x.isLt s)
  | ldBVx x | ldMemVx x => simp [writtenBy] at hw
  | _ => cases h; rfl

theorem keyWaitStep_mem {x : Reg} {last : KeySet} {s t : State} (h : keyWaitStep x last s = .next t) :
    t.mem = s.mem := by
  rcases keyWaitStep_cases x last s with ⟨-, hwait⟩ | ⟨k, -, -, hend⟩
  · cases hwait.symm.trans h
    rfl
  · cases hend.symm.trans h
    rfl

theorem unknownOpcodeStep_mem {s t : State} (h : unknownOpcodeStep s = .next t) : t.mem = s.mem := by
  rcases unknownOpcodeStep_cases s with ⟨-, hnop⟩ | ⟨-, hhalt⟩
  · cases hnop.symm.trans h
    rfl
  · cases hhalt.symm.trans h
    rfl

theorem step_changes_mem {s t : State} (h : step s = .next t) (hne : t.mem ≠ s.mem) :
    s.mode = .running ∧ ∃ i, decode s.fetch = .instr i ∧ exec i s = .next t ∧
      .mem ∈ writtenBy i s := by
  rcases step_cases h with
    ⟨f, -, rfl⟩ | ⟨x, last, -, hkey⟩ | ⟨hrun, ⟨w, -, hunknown⟩ | ⟨i, hd, hexec⟩⟩
  · exact absurd rfl hne
  · exact absurd (keyWaitStep_mem hkey) hne
  · exact absurd (unknownOpcodeStep_mem hunknown) hne
  · exact ⟨hrun, i, hd, hexec, by_contra fun hnot => hne (exec_mem hexec hnot)⟩

/-- Settles O19: an instruction without a write of memory keeps the list, so a changed one is a store's
(R34). -/
theorem onlyStoresWriteMemory : Obligations.OnlyStoresWriteMemory := by
  intro s t hstep hne
  obtain ⟨hrun, i, hd, -, hw⟩ := step_changes_mem hstep hne
  simpa [hrun, hd] using (writers i s).mem hw

end Sys2Proof.Machine
end

section
/-!
Proofs: the canonical form of memory and the invariant of the machine, kept by every step and every
operation of the host.
-/

namespace Sys2Proof.Machine

open Sys2Proof

/-! ### Canonical memory -/

theorem State.memWf_of_eq {s t : State} (h : s.memWf) (hmem : t.mem = s.mem)
    (hparams : t.params = s.params) : t.memWf := by
  rwa [State.memWf, hmem, hparams]

theorem State.memWf_writeThree {s : State} (h : s.memWf) (b₀ b₁ b₂ : Byte) :
    (s.writeThree b₀ b₁ b₂).memWf :=
  State.memWf_writeByte (State.memWf_writeByte (State.memWf_writeByte h _ _) _ _) _ _

/-- A step that changes the memory list is a store, and stores keep the form (log 4). -/
theorem step_memWf {s t : State} (hwf : s.memWf) (h : step s = .next t) : t.memWf := by
  by_cases hmem : t.mem = s.mem
  · exact State.memWf_of_eq hwf hmem (noCycleWritesKeysOrParameters s t h).2
  · obtain ⟨-, i, -, hexec, hw⟩ := step_changes_mem h hmem
    obtain ⟨x, rfl | rfl⟩ := (writers i s).mem hw
    · cases (exec_ldBVx x s).symm.trans hexec
      exact State.memWf_writeThree hwf _ _ _
    · cases (exec_ldMemVx x s).symm.trans hexec
      have hstore := memWf_storeRegs (x.val + 1) hwf
      rw [State.transferI_eq]
      exact hstore

/-- Settles O14: each half of the word is one read after the write (R35-R37, R47). -/
theorem nextFetchSeesAStore : Obligations.NextFetchSeesAStore := by
  intro s a b hwf
  have hread (c : Nat) : (s.writeByte a b).readByte c =
      if a % 4096 = c % 4096 then b else s.readByte c := by
    rw [State.readByte_writeByte hwf, maskAddr, maskAddr]
    simp only [memSize, eq_comm]
  rw [State.fetch, hread, hread]
  rfl

/-- Settles O13: each component is determined by what it reads as; for memory by the canonical form
(log 4). -/
theorem statesThatReadAlikeAreEqual : Obligations.StatesThatReadAlikeAreEqual := by
  intro s t hs ht hsame
  have hv : t.v = s.v := Vector.ext fun r hr => hsame .v ⟨r, hr⟩
  have hstack : t.stack = s.stack := stack_eq_of_unchanged (hsame .stack)
  have hdisp : t.disp = s.disp := Display.ext (hsame .disp)
  have hparams : t.params = s.params := hsame .params
  have hmem : t.mem = s.mem := by
    rw [State.memWf, hparams] at ht
    refine Memory.ext_of_read_from ht hs fun a _ ha => ?_
    have hread : t.readByte a = s.readByte a := hsame .mem a
    have hmask : maskAddr a = a := Nat.mod_eq_of_lt ha
    rwa [State.readByte, State.readByte, hmask, hparams] at hread
  have hi : t.i = s.i := hsame .i
  have hpc : t.pc = s.pc := hsame .pc
  have hsp : t.sp = s.sp := hsame .sp
  have hdt : t.dt = s.dt := hsame .dt
  have hst : t.st = s.st := hsame .st
  have hmode : t.mode = s.mode := hsame .mode
  have hkeys : t.keys = s.keys := hsame .keys
  have hdraws : t.draws = s.draws := hsame .draws
  cases s
  cases t
  simp_all

/-! ### The coherent mode -/

theorem State.modeCoherent_of_running {s : State} (h : s.mode = .running) : s.modeCoherent := by
  simp only [State.modeCoherent, h]

/-- A mode stays coherent where the word at PC, the depth and the policy are kept. -/
theorem State.modeCoherent_congr {s t : State} (h : s.modeCoherent) (hmode : t.mode = s.mode)
    (hfetch : t.fetch = s.fetch) (hsp : t.sp = s.sp) (hparams : t.params = s.params) :
    t.modeCoherent := by
  rwa [State.modeCoherent, hmode, hfetch, hsp, hparams]

theorem keyWaitStep_modeCoherent {x : Reg} {last : KeySet} {s t : State} (hs : s.modeCoherent)
    (hmode : s.mode = .awaitingKey x last) (h : keyWaitStep x last s = .next t) :
    t.modeCoherent := by
  rcases keyWaitStep_cases x last s with ⟨-, hwait⟩ | ⟨k, -, -, hend⟩
  · cases hwait.symm.trans h
    have hword : decode s.fetch = .instr (.ldVxK x) := by rwa [State.modeCoherent, hmode] at hs
    exact hword
  · cases hend.symm.trans h
    exact State.modeCoherent_of_running rfl

theorem unknownOpcodeStep_modeCoherent {s t : State} (hrun : s.mode = .running)
    (hd : decode s.fetch = .unknown s.fetch) (h : unknownOpcodeStep s = .next t) :
    t.modeCoherent := by
  rcases unknownOpcodeStep_cases s with ⟨-, hnop⟩ | ⟨hpolicy, hhalt⟩
  · cases hnop.symm.trans h
    exact State.modeCoherent_of_running hrun
  · cases hhalt.symm.trans h
    exact ⟨hpolicy, hd⟩

/-- An instruction that leaves `Running` has written `Mode` alone, so the state stands on its word. -/
theorem exec_modeCoherent {i : Instr} {s t : State} (hrun : s.mode = .running)
    (hd : decode s.fetch = .instr i) (h : exec i s = .next t) : t.modeCoherent := by
  rcases hm : t.mode with _ | ⟨x, last⟩ | f
  · exact State.modeCoherent_of_running hm
  · obtain ⟨rfl, -⟩ := (nextMode_eq_awaiting hrun).mp ((exec_mode h).symm.trans hm)
    cases (exec_ldVxK x s).symm.trans h
    exact hd
  · obtain ⟨rfl, ⟨rfl, hsp, nnn, rfl⟩ | ⟨rfl, hsp, rfl⟩⟩ := exec_halted hrun h hm
    · exact ⟨hsp, nnn, hd⟩
    · exact ⟨hsp, hd⟩

theorem step_modeCoherent {s t : State} (hs : s.modeCoherent) (h : step s = .next t) :
    t.modeCoherent := by
  rcases step_cases h with
    ⟨f, -, rfl⟩ | ⟨x, last, hmode, hkey⟩ | ⟨hrun, ⟨w, hd, hunknown⟩ | ⟨i, hd, hexec⟩⟩
  · exact hs
  · exact keyWaitStep_modeCoherent hs hmode hkey
  · exact unknownOpcodeStep_modeCoherent hrun (decode_unknown hd ▸ hd) hunknown
  · exact exec_modeCoherent hrun hd hexec

/-! ### The invariant -/

/-- Settles O10: the reset memory is the empty list, and the machine runs. -/
theorem resetMeetsTheInvariant : Obligations.ResetMeetsTheInvariant :=
  ⟨Memory.wf_nil _, State.modeCoherent_of_running rfl⟩

/-- Settles O11: the two halves of the invariant are kept independently. -/
theorem everyStepKeepsTheInvariant : Obligations.EveryStepKeepsTheInvariant := fun _ _ hs h =>
  ⟨step_memWf hs.mem h, step_modeCoherent hs.mode h⟩

theorem cycleState_inv {s : State} (h : s.Inv) : (cycleState s).Inv := by
  obtain ⟨t, ht⟩ := everyStepAnswersANextState s
  rw [cycleState_of_next ht]
  exact everyStepKeepsTheInvariant s t h ht

theorem tick_inv {s : State} (h : s.Inv) : (tick s).Inv := by
  by_cases hhalted : ∃ f, s.mode = .halted f
  · obtain ⟨f, hf⟩ := hhalted
    rwa [tick_of_halted hf]
  · rw [tick_of_not_halted (not_exists.mp hhalted)]
    exact ⟨h.mem, State.modeCoherent_congr h.mode rfl rfl rfl rfl⟩

theorem setKeys_inv {s : State} (h : s.Inv) (k : KeySet) : (setKeys k s).Inv :=
  ⟨h.mem, State.modeCoherent_congr h.mode rfl rfl rfl rfl⟩

theorem loadedMemory_wf {base : Nat} {image : List Byte} (h : image.length ≤ maxImage) :
    Memory.wf base (loadedMemory base image) = true := by
  refine placeBytes_wf (Memory.wf_nil base) ?_
  simp only [programBase, maxImage, memSize] at *
  omega

theorem load_inv {image : List Byte} {s t : State} (h : load image s = some t) : t.Inv := by
  unfold load at h
  split at h
  · cases h
  · cases h
    exact ⟨loadedMemory_wf (by omega), State.modeCoherent_of_running rfl⟩

theorem performLoaded_inv {s : State} (h : s.Inv) (op : HostOp) : (performLoaded op s).1.Inv := by
  cases op with
  | load image =>
    simp only [performLoaded]
    split
    · next t ht => exact load_inv ht
    · exact h
  | cycle => exact cycleState_inv h
  | tick => exact tick_inv h
  | setKeys k => exact setKeys_inv h k
  | display | sound | snapshot => exact h

theorem performUninitialized_inv (op : HostOp) (keys : KeySet) (params : Params) :
    (performUninitialized op keys params).1.Inv := by
  cases op with
  | load image =>
    simp only [performUninitialized]
    split
    · next t ht => exact load_inv ht
    · trivial
  | cycle | tick | setKeys k | display | sound | snapshot => trivial

theorem perform_inv {b : Block} (h : b.Inv) (op : HostOp) : (perform op b).1.Inv := by
  cases b with
  | uninitialized keys params => exact performUninitialized_inv op keys params
  | loaded s => exact performLoaded_inv h op

/-- Settles O12: by induction over the operations, each of which keeps the invariant. -/
theorem hostOperationsKeepTheInvariant : Obligations.HostOperationsKeepTheInvariant := by
  intro ops
  induction ops with
  | nil => exact fun b h => h
  | cons op ops ih => exact fun b h => ih _ (perform_inv h op)

end Sys2Proof.Machine
end

section
/-!
Proofs: 70_reset_and_hazards, reset, load and the end of a run; 60_exceptions, the halt, the snapshot
and the frame.
-/

namespace Sys2Proof.Machine

open Sys2Proof

/-! ### Reset and load -/

theorem getV_reset (r : Reg) : State.reset.getV r = 0 := by
  simp [State.getV, State.reset]

theorem stackAt_reset (j : Nat) : State.reset.stackAt j = 0 := by
  by_cases hj : j < 16 <;> simp [State.stackAt, State.reset, hj]

/-- Settles O23: registers, stack and pixels are replicated zeros; the bytes are read from the font or
outside it. -/
theorem resetLeavesTheSpecsValues : Obligations.ResetLeavesTheSpecsValues :=
  ⟨getV_reset, rfl, rfl, rfl, rfl, pixel_clearedDisplay, rfl, stackAt_reset, rfl, by decide, by decide,
    by decide, by decide, by decide⟩

theorem fontBytes_length : fontBytes.length = 80 := rfl

theorem unlistedByte_eq (base a : Nat) : unlistedByte base a =
    if base ≤ a ∧ a < base + 80 then fontBytes.getD (a - base) 0 else 0 := by
  unfold unlistedByte
  by_cases hlow : base ≤ a
  · by_cases hhigh : a < base + 80
    · rw [if_pos hlow, if_pos ⟨hlow, hhigh⟩]
    · have hout : fontBytes.length ≤ a - base := by rw [fontBytes_length]; omega
      rw [if_pos hlow, if_neg fun h => hhigh h.2, List.getD_eq_default _ _ hout]
  · rw [if_neg hlow, if_neg fun h => hlow h.1]

/-- The byte of loaded memory at `a`: the image's, else the font's, else 0 (R125, R127). -/
theorem read_loadedMemory {base a : Nat} {image : List Byte} (h : image.length ≤ maxImage) :
    Memory.read base (loadedMemory base image) a =
      if 0x200 ≤ a ∧ a < 0x200 + image.length then image.getD (a - 0x200) 0
      else if base ≤ a ∧ a < base + 80 then fontBytes.getD (a - base) 0
      else 0 := by
  have hfits : programBase + image.length ≤ memSize := by
    simp only [programBase, maxImage, memSize] at *
    omega
  rw [loadedMemory, read_placeBytes (Memory.wf_nil base) hfits, Memory.read, unlistedByte_eq]
  rfl

/-- The state that a load of a fitting image leaves (R125, R126). -/
def loadedState (image : List Byte) (s : State) : State :=
  { State.reset with
    mem := loadedMemory s.params.fontBase.val image
    keys := s.keys
    params := s.params
    draws := s.draws }

theorem performLoaded_load_of_large {image : List Byte} (s : State) (h : maxImage < image.length) :
    performLoaded (.load image) s = (s, .imageTooLarge) := by
  simp only [performLoaded, load, if_pos h]

theorem performLoaded_load_of_fits {image : List Byte} (s : State) (h : image.length ≤ maxImage) :
    performLoaded (.load image) s = (loadedState image s, .done) := by
  simp only [performLoaded, load, if_neg (Nat.not_lt_of_ge h)]
  rfl

/-- Settles O24: the loaded state is the reset state with the image's memory and the kept keys,
parameters and draws; its bytes are `read_loadedMemory`. -/
theorem loadDefinesEveryComponent : Obligations.LoadDefinesEveryComponent := by
  refine fun image s => ⟨performLoaded_load_of_large s, fun hfits => ?_⟩
  refine ⟨_, performLoaded_load_of_fits s hfits, getV_reset, rfl, rfl, rfl, stackAt_reset, rfl, rfl,
    pixel_clearedDisplay, rfl, rfl, rfl, loadedMemory_wf hfits, fun a ha => ?_⟩
  have hmask : maskAddr a = a := Nat.mod_eq_of_lt ha
  rw [State.readByte, hmask]
  exact read_loadedMemory hfits

/-! ### The halt -/

theorem cycleDiagnostic_of_halted {s : State} {f : FatalFault} (h : s.mode = .halted f) :
    cycleDiagnostic s = none := by
  simp only [cycleDiagnostic, h]

theorem cycleState_of_halted {s : State} {f : FatalFault} (h : s.mode = .halted f) :
    cycleState s = s := cycleState_of_next (step_of_halted h)

/-- In `Halted` an operation that is no load writes the keys at most (R112, D20). -/
theorem performLoaded_of_halted {s : State} {f : FatalFault} (h : s.mode = .halted f) {op : HostOp}
    (hop : op.notLoad = true) : ∃ k, (performLoaded op s).1 = setKeys k s := by
  cases op with
  | load image => cases hop
  | cycle => exact ⟨s.keys, cycleState_of_halted h⟩
  | tick => exact ⟨s.keys, tick_of_halted h⟩
  | setKeys k => exact ⟨k, rfl⟩
  | display | sound | snapshot => exact ⟨s.keys, rfl⟩

theorem performAll_of_halted {f : FatalFault} {ops : List HostOp}
    (hops : ∀ op ∈ ops, op.notLoad = true) {s : State} (h : s.mode = .halted f) :
    ∃ k, (performAll ops (.loaded s)).1 = .loaded (setKeys k s) := by
  induction ops generalizing s with
  | nil => exact ⟨s.keys, rfl⟩
  | cons op ops ih =>
    obtain ⟨hop, hrest⟩ := List.forall_mem_cons.mp hops
    obtain ⟨k, hk⟩ := performLoaded_of_halted h hop
    obtain ⟨k', hk'⟩ := ih hrest (s := setKeys k s) h
    refine ⟨k', ?_⟩
    rw [performAll, perform, hk]
    exact hk'

/-- Settles O17: by induction over the operations, each of which leaves a halt with other keys at most;
a load starts from reset values. -/
theorem haltedStaysUntilALoad : Obligations.HaltedStaysUntilALoad := by
  refine fun s f h => ⟨fun ops hops => performAll_of_halted hops h, ?cycle, fun image hfits =>
    ⟨_, performLoaded_load_of_fits s hfits, rfl⟩⟩
  case cycle => rw [performLoaded, cycleResult_of_halted h, cycleDiagnostic_of_halted h]

/-! ### The snapshot -/

/-- Settles O55: the operation answers `snapshot`, whose fields are the state's (R122). -/
theorem snapshotCopiesTheState : Obligations.SnapshotCopiesTheState := fun _ => rfl

/-! ### The frame -/

theorem performAll_cycles (n : Nat) (ops : List HostOp) (s : State) :
    ∃ rs, performAll (List.replicate n .cycle ++ ops) (.loaded s) =
      ((performAll ops (.loaded (cycleState^[n] s))).1,
        rs ++ (performAll ops (.loaded (cycleState^[n] s))).2) := by
  induction n generalizing s with
  | zero => exact ⟨[], rfl⟩
  | succ n ih =>
    obtain ⟨rs, hrs⟩ := ih (cycleState s)
    refine ⟨.cycle (cycleResult s) (cycleDiagnostic s) :: rs, ?_⟩
    rw [List.replicate_succ, List.cons_append, performAll, perform, performLoaded, hrs]
    rfl

/-- The state a frame ends in (R120). -/
def frameState (n : Nat) (k : KeySet) (s : State) : State := tick (cycleState^[n] (setKeys k s))

theorem performAll_frameOps (n : Nat) (k : KeySet) (s : State) :
    ∃ rs, performAll (frameOps n k) (.loaded s) =
      (.loaded (frameState n k s), rs ++ [.display (frameState n k s).disp]) := by
  obtain ⟨rs, hrs⟩ := performAll_cycles n [.tick, .display] (setKeys k s)
  refine ⟨.done :: (rs ++ [.done]), ?_⟩
  rw [frameOps, performAll, perform, performLoaded, hrs]
  simp [performAll, perform, performLoaded, frameState]

/-- Settles O56: the frame's run, with its last result (R120). -/
theorem frameTicksOnceAfterItsCycles : Obligations.FrameTicksOnceAfterItsCycles := by
  rintro n k s t rfl
  obtain ⟨rs, hrun⟩ := performAll_frameOps n k s
  rw [hrun]
  exact ⟨rfl, List.getLast?_concat⟩

/-! ### Frames in a key wait -/

section KeyWait

variable {x : Reg} {k last : KeySet} {s : State} (hmode : s.mode = .awaitingKey x last)

include hmode in
theorem cycleState_of_no_new_key (hnone : s.newKeys last = 0) :
    cycleState s = s.setMode (.awaitingKey x s.keys) :=
  cycleState_of_next ((step_of_awaiting hmode).trans (keyWaitStep_of_none hnone))

include hmode in
/-- The first cycle without a new key makes the keys the snapshot; every later one finds no new key
again (R103). -/
theorem cycleState_iterate_of_no_new_key {n : Nat} (hn : 0 < n) (hnone : k &&& ~~~last = 0) :
    cycleState^[n] (setKeys k s) = (setKeys k s).setMode (.awaitingKey x k) := by
  obtain ⟨m, rfl⟩ := Nat.exists_eq_succ_of_ne_zero hn.ne'
  have hfirst : cycleState (setKeys k s) = (setKeys k s).setMode (.awaitingKey x k) :=
    cycleState_of_no_new_key (s := setKeys k s) hmode hnone
  have hfixed : cycleState ((setKeys k s).setMode (.awaitingKey x k)) =
      (setKeys k s).setMode (.awaitingKey x k) :=
    cycleState_of_no_new_key (State.setMode_mode _ _) (BitVec.and_not_self k)
  rw [Function.iterate_succ_apply, hfirst, Function.iterate_fixed hfixed]

include hmode in
/-- One cycle with a new key ends the wait on a new key (R103). -/
theorem cycleState_of_new_key (hnew : k &&& ~~~last ≠ 0) :
    ∃ j : Fin 16, (k &&& ~~~last).getLsbD j.val = true ∧
      cycleState (setKeys k s) = ((setKeys k s).setV x (keyByte j)).advance.setMode .running := by
  obtain ⟨j, hj, -, hend⟩ := keyWaitStep_of_some (x := x) (s := setKeys k s) hnew
  have hstep : step (setKeys k s) = keyWaitStep x last (setKeys k s) := step_of_awaiting hmode
  exact ⟨j, hj, cycleState_of_next (hstep.trans hend)⟩

end KeyWait

/-- Settles O57: the cycles leave a wait with the keys as its snapshot, or a running machine; the one
tick then counts the timers down (R103, R116, R120). -/
theorem timersRunDuringTheKeyWait : Obligations.TimersRunDuringTheKeyWait := by
  refine fun n k last x s hmode hn => ⟨fun hnone => ?wait, fun hnew => ?ended⟩
  case wait =>
    obtain ⟨rs, hrun⟩ := performAll_frameOps n k s
    rw [hrun, frameState, cycleState_iterate_of_no_new_key hmode hn hnone]
    set t := (setKeys k s).setMode (.awaitingKey x k)
    have hwaits : ∀ f, t.mode ≠ .halted f := by simp [t]
    have hframe : ChangesOnly [.keys, .mode] s t :=
      (changesOnly_setKeys s k).trans (changesOnly_setMode _ _)
    exact ⟨_, rfl, changesOnly_tick t .mode (by decide), tick_dt hwaits, tick_st hwaits,
      (hframe.trans (changesOnly_tick t)).mono (by simp)⟩
  case ended =>
    obtain ⟨rs, hrun⟩ := performAll_frameOps 1 k s
    obtain ⟨j, hj, hend⟩ := cycleState_of_new_key hmode hnew
    rw [hrun, frameState, Function.iterate_one, hend]
    set t := ((setKeys k s).setV x (keyByte j)).advance.setMode .running
    have hruns : ∀ f, t.mode ≠ .halted f := by simp [t]
    have hx : t.getV x = keyByte j := State.getV_setV_self _ x _
    have hframe : ChangesOnly [.keys, .v, .pc, .mode] s t :=
      (changesOnly_setKeys s k).trans (changesOnly_keyWaitEnd _ x _)
    have htick := changesOnly_tick t
    exact ⟨_, rfl, htick .mode (by decide), htick .pc (by decide),
      ⟨j, (htick .v (by decide) x).trans hx, hj⟩, tick_dt hruns,
      (hframe.trans htick).mono (by simp)⟩

/-! ### The ends of a run -/

/-- A jump to its own address changes nothing (R136). -/
theorem cycleState_of_spin {s : State} {nnn : BitVec 12} (hrun : s.mode = .running)
    (hd : decode s.fetch = .instr (.jp nnn)) (hself : zextAddr nnn = s.pc) : cycleState s = s := by
  refine cycleState_of_next ((step_of_instr hrun hd).trans ?_)
  rw [exec_jp, hself]
  rfl

/-- What `runEnd` tells of its state: a halt, or a running machine on a jump to itself (R136). -/
theorem runEnd_cases {s : State} {e : RunEnd} (h : runEnd s = some e) :
    (∃ f, s.mode = .halted f ∧ e = .faulted f) ∨
    (s.mode = .running ∧ e = .spin ∧
      ∃ nnn, decode s.fetch = .instr (.jp nnn) ∧ zextAddr nnn = s.pc) := by
  unfold runEnd at h
  split at h
  · next f hm =>
    cases h
    exact .inl ⟨f, hm, rfl⟩
  · cases h
  · next hm =>
    split at h
    · next nnn hd =>
      split at h
      · next hself =>
        cases h
        exact .inr ⟨hm, rfl, nnn, hd, hself⟩
      · cases h
    · cases h

/-- Settles O58: neither a halt nor a jump to itself changes the state, so no number of cycles does; the
kind of the end is read off the mode (R136). -/
theorem runEndsAreFixedPoints : Obligations.RunEndsAreFixedPoints := by
  intro s e n hend
  rcases runEnd_cases hend with ⟨f, hm, rfl⟩ | ⟨hrun, rfl, nnn, hd, hself⟩
  · exact ⟨Function.iterate_fixed (cycleState_of_halted hm) n, by simp [hm],
      fun g => by simp [hm]⟩
  · exact ⟨Function.iterate_fixed (cycleState_of_spin hrun hd hself) n,
      iff_of_true rfl ⟨hrun, nnn, hd, hself⟩, fun g => by simp [hrun]⟩

end Sys2Proof.Machine
end
